-- ==== Sys2Proof/Word.lean ====
section
/-! DEFINITION. The one word of the block: a byte (20_memory.md R51: every access is one byte wide). -/

namespace Sys2Proof

/-- A byte: 8 bits, bit 7 the most significant (00_scope.md R11). Blocks, opcode bytes, count bytes and data bytes are bytes. -/
abbrev Byte := BitVec 8

end Sys2Proof
end

