-- ==== Sys2Proof/Config.lean ====
section
/-! DEFINITION. The configuration `CFG` (00_scope.md R7 to R9, 10_state.md R21), the fixed constants (R8) and the free value. -/

namespace Sys2Proof

/-- `REPEAT_LAYOUT` (00_scope.md R9): how an opcode byte with bit 7 set is read. -/
inductive Layout where
  | sixBit
  | sevenBit
  deriving DecidableEq, Repr

/-- `CFG.REPEAT_LAYOUT` as the one bit of 10_state.md R21: 0 = SIX_BIT, 1 = SEVEN_BIT. -/
def Layout.code : Layout → BitVec 1
  | .sixBit => 0
  | .sevenBit => 1

/-- The configuration parameters that `Reset(cfg)` supplies (00_scope.md R7, 10_state.md R21). -/
structure Cfg where
  w : Nat
  h : Nat
  layout : Layout
  deriving DecidableEq, Repr

namespace Cfg

/-- `FB`, the frame size in blocks: W·H/8 (00_scope.md R8, C3). -/
def fb (c : Cfg) : Nat := c.w * c.h / 8

/-- `RL_NOM`, the nominal raster length W·⌊H/8⌋ of the upstream rasterizer; informative (00_scope.md R8, C3). -/
def rlNom (c : Cfg) : Nat := c.w * (c.h / 8)

/-- A legal configuration (70_reset_and_hazards.md R241). -/
abbrev legal (c : Cfg) : Prop := 1 ≤ c.w ∧ 1 ≤ c.h ∧ c.w * c.h % 8 = 0

/-- The default configuration: W = 128, H = 64, SIX_BIT (00_scope.md R7, R9; D2, D8). -/
def default : Cfg := { w := 128, h := 64, layout := .sixBit }

end Cfg

namespace Config

/-- `SKIP_CHUNK`: the largest Skip run chunk (00_scope.md R8). -/
abbrev skipChunk : Nat := 256

/-- `REPEAT_CHUNK`: the largest Repeat run chunk (00_scope.md R8). -/
abbrev repeatChunk : Nat := 64

/-- `REPEAT_MIN`: the smallest merged identical-literal run that becomes Repeat (00_scope.md R8). -/
abbrev repeatMin : Nat := 3

/-- `SHORT_MAX`: the largest count of a 3-bit field (00_scope.md R8). -/
abbrev shortMax : Nat := 7

/-- `LONG_MAX`: the largest count of LongSkip and LongCopy (00_scope.md R8). -/
abbrev longMax : Nat := 256

/-- FREE VALUE: the byte that block `a` of DM holds after the `k`-th Reset until the decoder writes it
(10_state.md R31, X1: "every byte a free draw at each Reset"). It has no body, so nothing can be proved of its value (log 1). -/
opaque freeByte : (k a : Nat) → Byte

end Config

end Sys2Proof
end

