-- ==== Sys2Proof/Syntax.lean ====
section
/-! DEFINITION. The wire instructions, one constructor per row of spec/opcode_table.json (00_scope.md R14, 30_encoding.md R70). -/

namespace Sys2Proof

/-- A wire instruction with its operands as 00_scope.md R14 gives them: semantic counts (never the biased fields), bytes and
byte sequences. The count `c` of a copy and `n` of a long copy are the length of the data `d`, so they are not held twice (log 9). -/
inductive Instr where
  /-- LONGSKIP n: skip `n` blocks, 1 to 256 (30_encoding.md R73). -/
  | longSkip (n : Nat)
  /-- SKIPCOPY s, c : d — skip `s` blocks, then copy the `c = |d|` bytes `d` (R72). -/
  | skipCopy (s : Nat) (d : List Byte)
  /-- LONGCOPY n : d — copy the `n = |d|` bytes `d`, 1 to 256 (R75). -/
  | longCopy (d : List Byte)
  /-- COPYSKIP c, s : d — copy the `c = |d|` bytes `d`, then skip `s` blocks (R74). -/
  | copySkip (d : List Byte) (s : Nat)
  /-- REPEAT n, v: write `v` to `n` blocks, 1 to 64; SIX_BIT layout (R76). -/
  | repeatByte (n : Nat) (v : Byte)
  /-- REPEATSKIP n, s, v: write `v` to `n` blocks, then skip `s`; SIX_BIT layout (R77). -/
  | repeatSkip (n s : Nat) (v : Byte)
  /-- REPEAT7 n, v: write `v` to `n` blocks, 1 to 128; SEVEN_BIT layout (R78). -/
  | repeat7 (n : Nat) (v : Byte)
  deriving DecidableEq, Repr

end Sys2Proof
end

