-- ==== Sys2Proof/WellFormed.lean ====
section
/-! DEFINITION. When an instruction has an encoding: the preconditions of 30_encoding.md R83 (with R78 for REPEAT7), and which
layout has it (R71, R78). -/

namespace Sys2Proof

namespace Instr

/-- The counts fit the instruction's fields and the excluded combination does not occur (30_encoding.md R83 preconditions; R78). -/
def wf : Instr → Bool
  | longSkip n => 1 ≤ n && n ≤ Config.longMax
  | skipCopy s d => s ≤ Config.shortMax && d.length ≤ Config.shortMax && (s != 0 || d.length != 0)
  | longCopy d => 1 ≤ d.length && d.length ≤ Config.longMax
  | copySkip d s => d.length ≤ Config.shortMax && s ≤ Config.shortMax && (d.length != 0 || s != 0)
  | repeatByte n _ => 1 ≤ n && n ≤ Config.repeatChunk
  | repeatSkip n s _ => n ≤ Config.shortMax && s ≤ Config.shortMax
  | repeat7 n _ => 1 ≤ n && n ≤ 128

/-- Whether the layout's decoder has this instruction (the `layout` column of the opcode table; 30_encoding.md R71, R78). -/
def inLayout : Layout → Instr → Bool
  | _, longSkip _ => true
  | _, skipCopy _ _ => true
  | _, longCopy _ => true
  | _, copySkip _ _ => true
  | .sixBit, repeatByte _ _ => true
  | .sevenBit, repeatByte _ _ => false
  | .sixBit, repeatSkip _ _ _ => true
  | .sevenBit, repeatSkip _ _ _ => false
  | .sixBit, repeat7 _ _ => false
  | .sevenBit, repeat7 _ _ => true

end Instr

end Sys2Proof
end

