-- ==== Sys2Proof/Decode.lean ====
section
/-! DEFINITION. The wire format: the decode function (30_encoding.md R71 to R81), total on any bytes, and after it the encoder
(the `Pack_` functions of R83, and R78 for REPEAT7). -/

namespace Sys2Proof

/-- `b[hi:lo]` as a natural number, with `len = hi - lo + 1` (00_scope.md R11). -/
def bitField (b : Byte) (lo len : Nat) : Nat := (b.extractLsb' lo len).toNat

/-- What the opcode byte alone tells (30_encoding.md R79): the kind and the fields as they stand in the bits, unbiased counts and
biased fields alike (R80). -/
inductive Kind where
  | skipCopy (s c : Nat)
  | longSkip
  | copySkip (c s : Nat)
  | longCopy
  | repeatByte (r : Nat)
  | repeat7 (r : Nat)
  | repeatSkip (r s : Nat)
  deriving DecidableEq, Repr

/-- `Decode(b, layout)` of 30_encoding.md R79, total on all 256 opcode bytes. -/
def decodeOpcode (layout : Layout) (b : Byte) : Kind :=
  if layout = .sevenBit ∧ bitField b 7 1 = 1 then .repeat7 (bitField b 0 7)
  else if bitField b 6 2 = 0b00 then
    if b = 0x00 then .longSkip else .skipCopy (bitField b 3 3) (bitField b 0 3)
  else if bitField b 6 2 = 0b01 then
    if b = 0x40 then .longCopy else .copySkip (bitField b 3 3) (bitField b 0 3)
  else if bitField b 6 2 = 0b10 then .repeatByte (bitField b 0 6)
  else .repeatSkip (bitField b 3 3) (bitField b 0 3)

/-- The mnemonic of a kind, as spec/opcode_table.json spells it. -/
def Kind.mnemonic : Kind → String
  | .skipCopy _ _ => "SKIPCOPY"
  | .longSkip => "LONGSKIP"
  | .copySkip _ _ => "COPYSKIP"
  | .longCopy => "LONGCOPY"
  | .repeatByte _ => "REPEAT"
  | .repeat7 _ => "REPEAT7"
  | .repeatSkip _ _ => "REPEATSKIP"

/-- A row of spec/opcode_table.json: the opcode byte matches `value` under `mask`, is none of `excludes`, and the row applies under
the layouts listed. -/
structure OpcodeRow where
  mnemonic : String
  value : Byte
  mask : Byte
  excludes : List Byte
  layouts : List Layout
  deriving DecidableEq, Repr

/-- spec/opcode_table.json, row by row. -/
def opcodeTable : List OpcodeRow :=
  [ ⟨"LONGSKIP", 0x00, 0xFF, [], [.sixBit, .sevenBit]⟩,
    ⟨"SKIPCOPY", 0x00, 0xC0, [0x00], [.sixBit, .sevenBit]⟩,
    ⟨"LONGCOPY", 0x40, 0xFF, [], [.sixBit, .sevenBit]⟩,
    ⟨"COPYSKIP", 0x40, 0xC0, [0x40], [.sixBit, .sevenBit]⟩,
    ⟨"REPEAT", 0x80, 0xC0, [], [.sixBit]⟩,
    ⟨"REPEATSKIP", 0xC0, 0xC0, [], [.sixBit]⟩,
    ⟨"REPEAT7", 0x80, 0x80, [], [.sevenBit]⟩ ]

/-- The row applies to the opcode byte under the layout (the table's note; 30_encoding.md R71). -/
def OpcodeRow.applies (r : OpcodeRow) (layout : Layout) (b : Byte) : Bool :=
  b &&& r.mask == r.value && !r.excludes.contains b && r.layouts.contains layout

/-- Why bytes are no instruction. There is one reason only (30_encoding.md R85): the instruction needs `need` bytes, opcode byte
included, and fewer are there (42_opcode_decoder.md R172, R217). -/
inductive DecodeError where
  | truncated (need : Nat)
  deriving DecidableEq, Repr

/-- The result of decoding: the instruction and the bytes after it, or the reason there is none. -/
abbrev Decoded := Except DecodeError (Instr × List Byte)

/-- An instruction whose `c` data bytes come next (`used` bytes are read already); it is cut short when they are not all there. -/
def takeData (used c : Nat) (rest : List Byte) (mk : List Byte → Instr) : Decoded :=
  if rest.length < c then .error (.truncated (used + c)) else .ok (mk (rest.take c), rest.drop c)

/-- An instruction whose one operand byte comes next (after the opcode byte). -/
def takeByte (rest : List Byte) (mk : Byte → Instr) : Decoded :=
  match rest with
  | [] => .error (.truncated 2)
  | v :: rest' => .ok (mk v, rest')

/-- LongCopy's count byte and its N + 1 data bytes (30_encoding.md R75, 42_opcode_decoder.md R178). -/
def takeLongCopy (rest : List Byte) : Decoded :=
  match rest with
  | [] => .error (.truncated 2)
  | n :: rest' => takeData 2 (n.toNat + 1) rest' .longCopy

/-- The instruction at the head of a byte sequence (42_opcode_decoder.md R171, operands R175 to R181, order of needs R217). -/
def decode (layout : Layout) (bytes : List Byte) : Decoded :=
  match bytes with
  | [] => .error (.truncated 1)
  | op :: rest =>
    match decodeOpcode layout op with
    | .skipCopy s c => takeData 1 c rest (.skipCopy s)
    | .longSkip => takeByte rest fun n => .longSkip (n.toNat + 1)
    | .copySkip c s => takeData 1 c rest fun d => .copySkip d s
    | .longCopy => takeLongCopy rest
    | .repeatByte r => takeByte rest fun v => .repeatByte (r + 1) v
    | .repeat7 r => takeByte rest fun v => .repeat7 (r + 1) v
    | .repeatSkip r s => takeByte rest fun v => .repeatSkip r s v

/-- `tag ‖ hi[2:0] ‖ lo[2:0]`: an opcode byte with two 3-bit counts (30_encoding.md R83). -/
def packShort (tag : BitVec 2) (hi lo : Nat) : Byte := tag ++ BitVec.ofNat 3 hi ++ BitVec.ofNat 3 lo

/-- `zext_8(n − 1)`: a count byte (30_encoding.md R80, R83). -/
def packCount (n : Nat) : Byte := BitVec.ofNat 8 (n - 1)

/-- The wire bytes of an instruction: `Pack_X` of 30_encoding.md R83, and for REPEAT7 the bytes of R78 (R87). -/
def encode : Instr → List Byte
  | .longSkip n => [0x00, packCount n]
  | .skipCopy s d => packShort 0b00 s d.length :: d
  | .longCopy d => 0x40 :: packCount d.length :: d
  | .copySkip d s => packShort 0b01 d.length s :: d
  | .repeatByte n v => [0b10#2 ++ BitVec.ofNat 6 (n - 1), v]
  | .repeatSkip n s v => [packShort 0b11 n s, v]
  | .repeat7 n v => [0b1#1 ++ BitVec.ofNat 7 (n - 1), v]

/-- The concatenation of the bytes of an instruction list, in order (41_opcode_encoder.md R145). -/
def encodeAll (is : List Instr) : List Byte := is.flatMap encode

/-- The longest instruction in bytes: LongCopy of 256 (42_opcode_decoder.md R178). -/
def maxLength : Nat := 258

/-- The `k` bytes of the number `w`, its least significant byte first. -/
def bytesOfNat : Nat → Nat → List Byte
  | 0, _ => []
  | k + 1, w => BitVec.ofNat 8 w :: bytesOfNat k (w / 256)

/-- The bytes of an instruction whose table bits are the low `nbits` bits of `w`, the rest zero, as long as the longest
instruction; the first byte holds bits 7..0. -/
def tableBytes (nbits w : Nat) : List Byte := bytesOfNat maxLength (w % 2 ^ nbits)

/-- The instruction this decoder reads from a table word, under the layout of the default configuration, SIX_BIT, which is the
layout after reset (log 7). -/
def decodeTableWord (nbits w : Nat) : Option Instr :=
  match decode Cfg.default.layout (tableBytes nbits w) with
  | .ok (i, _) => some i
  | .error _ => none

end Sys2Proof
end

