-- ==== Sys2Proof/Machine/State.lean ====
section
/-! DEFINITION. The block's state (10_state.md R20 to R34), the host's queue, the reasons to stop, and the state after reset. -/

namespace Sys2Proof.Machine

/-- `ESTATE` (10_state.md R24). -/
inductive EState where
  | ready
  | fault
  deriving DecidableEq, Repr

/-- `EFAULT` (10_state.md R24, 60_exceptions.md R210). -/
inductive EFault where
  | none
  | lengthMismatch
  | blockAccountingMismatch
  deriving DecidableEq, Repr

/-- `EFINFO`'s record (10_state.md R24); `blocks` is recorded by BlockAccountingMismatch only (60_exceptions.md R210). -/
structure EInfo where
  frame : Nat
  prevLen : Nat
  curLen : Nat
  blocks : Option Nat
  deriving DecidableEq, Repr

/-- `DSTATE` (10_state.md R28). -/
inductive DState where
  | idle
  | run
  | done
  | fault
  deriving DecidableEq, Repr

/-- `DFAULT` (10_state.md R28, 60_exceptions.md R210). -/
inductive DFault where
  | none
  | streamUnderflow
  | frameOverrun
  deriving DecidableEq, Repr

/-- `DFINFO`'s record (10_state.md R28); StreamUnderflow records `need`, FrameOverrun records `adv` (42_opcode_decoder.md R172, R173). -/
structure DInfo where
  cur : Nat
  blk : Nat
  need : Option Nat
  adv : Option Nat
  deriving DecidableEq, Repr

/-- One event of `TRACE` (10_state.md R29). -/
inductive Event where
  /-- Blocks a to a+n−1 of the current frame are skipped. -/
  | adv (a n : Nat)
  /-- Byte v is the content of block a of the current frame. -/
  | put (a : Nat) (v : Byte)
  /-- Frame k, counted from 0, is complete. -/
  | frameEnd (k : Nat)
  deriving DecidableEq, Repr

/-- A transaction of the host (00_scope.md R5). -/
inductive Transaction where
  | reset (cfg : Cfg)
  | encodeFrame (raster : List Byte)
  | decLoad (stream : List Byte)
  | decStep
  deriving DecidableEq, Repr

/-- DM as a list of (block address, byte) pairs: the blocks written since the last Reset, addresses strictly rising. An address
that is not listed has not been written since then (log 2). -/
abbrev Memory := List Host.Cell

/-- The machine's state (10_state.md R20), then the model's own two fields. -/
structure State where
  /-- A `Reset` has completed (70_reset_and_hazards.md R242). -/
  resetDone : Bool
  /-- `CFG` (10_state.md R21). -/
  cfg : Cfg
  /-- `ESTATE` (R24). -/
  estate : EState
  /-- `EFAULT` (R24). -/
  efault : EFault
  /-- `EFINFO` (R24). -/
  efinfo : Option EInfo
  /-- `PREV_VALID` (R25). -/
  prevValid : Bool
  /-- `PREV` (R25). -/
  prev : List Byte
  /-- `OUT` (R26). -/
  out : List Byte
  /-- `EFRAMES` (R26). -/
  eframes : Nat
  /-- `DSTATE` (R28). -/
  dstate : DState
  /-- `DFAULT` (R28). -/
  dfault : DFault
  /-- `DFINFO` (R28). -/
  dfinfo : Option DInfo
  /-- `IN` (R28). -/
  inp : List Byte
  /-- `cur`, the byte cursor (R27). -/
  cur : Nat
  /-- `blk`, the source's blocksConsumed (R28). -/
  blk : Nat
  /-- `DFRAMES` (R28). -/
  dframes : Nat
  /-- `TRACE` (R29), oldest event first. -/
  trace : List Event
  /-- `DM` (R31). -/
  dm : Memory
  /-- The model's own: the number of the draw DM's free bytes come from (log 1). -/
  resetCount : Nat
  /-- The model's own: the transactions the host issues next, oldest first (log 3). -/
  hostQueue : List Transaction
  deriving DecidableEq, Repr

/-- Why the machine stops with a fault. The block's own faults (60_exceptions.md R210) are states it goes on from, not these. -/
inductive Fault where
  /-- A write to a block address outside 0..FB−1, which DM does not have (20_memory.md R50). Raised by the shared write of
  Machine/Ops.lean; `Fit` (42_opcode_decoder.md R173) keeps every instruction from it. Safe: the machine stops (log 8). -/
  | noSuchBlock (a : Nat)
  deriving DecidableEq, Repr

/-- Why the machine gives a transaction no meaning (`refuse`, 00_scope.md R13). -/
inductive Refusal where
  /-- An instruction without a meaning; no arm of exec answers it. Safe. -/
  | notModelled (mnemonic : String)
  /-- EncodeFrame, DecLoad or DecStep before the first Reset (70_reset_and_hazards.md R242). Raised by the transactions. Safe. -/
  | beforeReset
  /-- Reset with an illegal configuration (70_reset_and_hazards.md R241). Raised by Reset. Safe. -/
  | illegalConfig
  /-- DecLoad while DSTATE is RUN or FAULT (42_opcode_decoder.md R170). Raised by DecLoad. Safe. -/
  | decoderBusy
  deriving DecidableEq, Repr

/-- Every state element at its reset value (10_state.md R34) under the configuration `cfg`; `k` numbers the draw of DM's bytes and
`queue` is what the host issues next. -/
def State.afterReset (cfg : Cfg) (k : Nat) (queue : List Transaction) : State where
  resetDone := true
  cfg := cfg
  estate := .ready
  efault := .none
  efinfo := none
  prevValid := false
  prev := []
  out := []
  eframes := 0
  dstate := .idle
  dfault := .none
  dfinfo := none
  inp := []
  cur := 0
  blk := 0
  dframes := 0
  trace := []
  dm := []
  resetCount := k
  hostQueue := queue

/-- The machine right after `Reset` with the default configuration (10_state.md R34, R21; log 4). -/
def State.reset : State := State.afterReset Cfg.default 0 []

end Sys2Proof.Machine
end

