-- ==== Sys2Proof/Machine/Flags.lean ====
section
/-! DEFINITION. The block has no condition flags (10_state.md R23): its only status bits are the two fault fields, which only faults
and Reset and DecLoad write. Their numeric codes are those of 60_exceptions.md R210. -/

namespace Sys2Proof.Machine

/-- The code in `EFAULT` (10_state.md R24, 60_exceptions.md R210). -/
def EFault.code : EFault → Nat
  | .none => 0
  | .lengthMismatch => 1
  | .blockAccountingMismatch => 2

/-- The code in `DFAULT` (10_state.md R28, 60_exceptions.md R210). -/
def DFault.code : DFault → Nat
  | .none => 0
  | .streamUnderflow => 1
  | .frameOverrun => 2

end Sys2Proof.Machine
end

