-- ==== Sys2Proof/Machine/Operands.lean ====
section
/-! DEFINITION. What each instruction's operands amount to: its length in bytes (30_encoding.md R81), the blocks it writes, skips and
advances (R82), and where its written blocks start. -/

namespace Sys2Proof.Instr

/-- Length in bytes (30_encoding.md R81). -/
def byteLength : Instr → Nat
  | longSkip _ => 2
  | skipCopy _ d => 1 + d.length
  | longCopy d => 2 + d.length
  | copySkip d _ => 1 + d.length
  | repeatByte _ _ => 2
  | repeatSkip _ _ _ => 2
  | repeat7 _ _ => 2

/-- The bytes it writes to consecutive blocks (column `put` of 30_encoding.md R82; the bytes of 42_opcode_decoder.md R175 to R181). -/
def putBytes : Instr → List Byte
  | longSkip _ => []
  | skipCopy _ d => d
  | longCopy d => d
  | copySkip d _ => d
  | repeatByte n v => List.replicate n v
  | repeatSkip n _ v => List.replicate n v
  | repeat7 n v => List.replicate n v

/-- Blocks skipped before the write (30_encoding.md R82, "first"). -/
def skipBefore : Instr → Nat
  | longSkip n => n
  | skipCopy s _ => s
  | longCopy _ => 0
  | copySkip _ _ => 0
  | repeatByte _ _ => 0
  | repeatSkip _ _ _ => 0
  | repeat7 _ _ => 0

/-- Blocks skipped after the write (30_encoding.md R82, "after"). -/
def skipAfter : Instr → Nat
  | longSkip _ => 0
  | skipCopy _ _ => 0
  | longCopy _ => 0
  | copySkip _ s => s
  | repeatByte _ _ => 0
  | repeatSkip _ s _ => s
  | repeat7 _ _ => 0

/-- Blocks written (column `put` of 30_encoding.md R82). -/
def put : Instr → Nat
  | longSkip _ => 0
  | skipCopy _ d => d.length
  | longCopy d => d.length
  | copySkip d _ => d.length
  | repeatByte n _ => n
  | repeatSkip n _ _ => n
  | repeat7 n _ => n

/-- Blocks skipped (column `skip` of 30_encoding.md R82). -/
def skip (i : Instr) : Nat := i.skipBefore + i.skipAfter

/-- Blocks advanced, `adv = put + skip` (30_encoding.md R82). -/
def adv (i : Instr) : Nat := i.put + i.skip

/-- A Skip-class instruction: its skip part is non-zero (00_scope.md glossary, D23). -/
def skipClass (i : Instr) : Bool := i.skip != 0

end Sys2Proof.Instr

namespace Sys2Proof.Machine

/-- The first block the instruction writes, given the write cursor `blk`. -/
def putBase (i : Instr) (blk : Nat) : Nat := blk + i.skipBefore

/-- `Σ adv` over an instruction list (30_encoding.md R82, 41_opcode_encoder.md R142). -/
def advSum (is : List Instr) : Nat := (is.map Instr.adv).sum

end Sys2Proof.Machine
end

