-- ==== Sys2Proof/Machine/Ops.lean ====
section
/-! DEFINITION. The named operations over DM, TRACE and the decoder's counters that the instructions share (42_opcode_decoder.md
R172 to R174), and fault entry of both agents (60_exceptions.md R218, R219). There is no return from a fault (R221). -/

namespace Sys2Proof.Machine

/-- What a meaning answers. -/
abbrev Result := Host.Outcome State Fault Refusal

/-- Go on with `f` from a next state; a fault or a refusal stays. -/
def andThen (r : Result) (f : State → Result) : Result :=
  match r with
  | .next s => f s
  | .fault e => .fault e
  | .refused e => .refused e

/-! ### DM -/

/-- The canonical form of DM's list: addresses strictly rising (log 2). -/
abbrev Memory.wf (m : Memory) : Prop := m.Pairwise fun c d => c.1 < d.1

/-- The byte written to block `a` since the last Reset, or none (log 2). -/
def Memory.lookup : Memory → Nat → Option Byte
  | [], _ => none
  | (b, v) :: m, a => if a = b then some v else Memory.lookup m a

/-- `MemWrite(DM, a, 1, v)` on the list (00_scope.md R13). -/
def Memory.write : Memory → Nat → Byte → Memory
  | [], a, v => [(a, v)]
  | (b, w) :: m, a, v =>
    if a < b then (a, v) :: (b, w) :: m
    else if a = b then (a, v) :: m
    else (b, w) :: Memory.write m a v

/-- The byte DM holds at block `a`: the byte written last since Reset, else the free draw of that Reset (10_state.md R31, X1, X2). -/
def State.dmByte (s : State) (a : Nat) : Byte :=
  (Memory.lookup s.dm a).getD (Config.freeByte s.resetCount a)

/-- The host's read of DM (10_state.md R32): blocks 0..FB−1 exist, no other (20_memory.md R50). -/
def State.dmRead (s : State) (a : Nat) : Option Byte :=
  if a < s.cfg.fb then some (s.dmByte a) else none

/-! ### Fault entry -/

/-- The encoder's fault entry, `raise K(info)` inside EncodeFrame (60_exceptions.md R218). -/
def State.raiseEnc (k : EFault) (info : EInfo) (s : State) : State :=
  { s with estate := .fault, efault := k, efinfo := some info }

/-- The decoder's fault entry, `raise K(info)` inside DecStep (60_exceptions.md R219). -/
def State.raiseDec (k : DFault) (info : DInfo) (s : State) : State :=
  { s with dstate := .fault, dfault := k, dfinfo := some info }

/-- StreamUnderflow with the record of 42_opcode_decoder.md R172: `need` bytes from `cur` are not there. -/
def State.raiseUnderflow (need : Nat) (s : State) : State :=
  s.raiseDec .streamUnderflow { cur := s.cur, blk := s.blk, need := some need, adv := none }

/-- FrameOverrun with the record of 42_opcode_decoder.md R173. -/
def State.raiseOverrun (adv : Nat) (s : State) : State :=
  s.raiseDec .frameOverrun { cur := s.cur, blk := s.blk, need := none, adv := some adv }

/-! ### The shared steps of an instruction -/

/-- `Need(k)` (42_opcode_decoder.md R172), then `cont`. -/
def need (k : Nat) (s : State) (cont : Result) : Result :=
  if s.cur + k > s.inp.length then .next (s.raiseUnderflow k) else cont

/-- `Fit(adv)` (42_opcode_decoder.md R173), then `cont`. -/
def fit (adv : Nat) (s : State) (cont : Result) : Result :=
  if s.blk + adv > s.cfg.fb then .next (s.raiseOverrun adv) else cont

/-- `emit e` (00_scope.md R13). -/
def State.emit (e : Event) (s : State) : State := { s with trace := s.trace ++ [e] }

/-- `if n > 0: emit Adv(a, n)`: a skip; a skip of no block emits no event (10_state.md R29). -/
def State.skipBlocks (a n : Nat) (s : State) : State := if n > 0 then s.emit (.adv a n) else s

/-- `MemWrite(DM, a, 1, v); emit Put(a, v)` (10_state.md R31). -/
def State.putBlock (a : Nat) (v : Byte) (s : State) : State :=
  State.emit (.put a v) { s with dm := Memory.write s.dm a v }

/-- Write the bytes to consecutive blocks from `a` on, in increasing block order (20_memory.md R52). DM has no block from FB on
(20_memory.md R50). -/
def putBlocks (a : Nat) (d : List Byte) (s : State) : Result :=
  match d with
  | [] => .next s
  | v :: d' => if a < s.cfg.fb then putBlocks (a + 1) d' (s.putBlock a v) else .fault (.noSuchBlock a)

/-- `blk <- blk + adv ; cur <- cur + len` (10_state.md R27, R28). -/
def State.advance (adv len : Nat) (s : State) : State := { s with blk := s.blk + adv, cur := s.cur + len }

/-- `Boundary()` (42_opcode_decoder.md R174). -/
def State.boundary (s : State) : State :=
  if s.blk = s.cfg.fb then { s.emit (.frameEnd s.dframes) with dframes := s.dframes + 1, blk := 0 } else s

/-- The end of an instruction that did not fault: the counters, then `Boundary()`. -/
def retire (adv len : Nat) (s : State) : Result := .next (s.advance adv len).boundary

end Sys2Proof.Machine
end

