-- ==== Sys2Proof/Machine/Copies.lean ====
section
/-! DEFINITION. The meanings of the instructions that carry the bytes they write: SKIPCOPY, COPYSKIP, LONGCOPY. -/

namespace Sys2Proof.Machine

/-- SKIPCOPY (42_opcode_decoder.md R175). -/
def execSkipCopy (sk : Nat) (d : List Byte) (s : State) : Result :=
  need (1 + d.length) s <| fit (sk + d.length) s <|
    andThen (putBlocks (s.blk + sk) d (s.skipBlocks s.blk sk)) (retire (sk + d.length) (1 + d.length))

/-- COPYSKIP (42_opcode_decoder.md R177). -/
def execCopySkip (d : List Byte) (sk : Nat) (s : State) : Result :=
  need (1 + d.length) s <| fit (d.length + sk) s <|
    andThen (putBlocks s.blk d s) fun s' =>
      retire (d.length + sk) (1 + d.length) (s'.skipBlocks (s.blk + d.length) sk)

/-- LONGCOPY (42_opcode_decoder.md R178): `Need(2)` for the count byte, then `Need(3 + N)`, N + 1 = |d|. -/
def execLongCopy (d : List Byte) (s : State) : Result :=
  need 2 s <| need (2 + d.length) s <| fit d.length s <|
    andThen (putBlocks s.blk d s) (retire d.length (2 + d.length))

end Sys2Proof.Machine
end

