-- ==== Sys2Proof/Machine/Repeats.lean ====
section
/-! DEFINITION. The meanings of the instructions that replicate one byte: REPEAT, REPEATSKIP, REPEAT7. -/

namespace Sys2Proof.Machine

/-- Write `v` to `n` blocks, then skip `sk` (the common body of 42_opcode_decoder.md R179, R180, R181). -/
def replicateThenSkip (n sk : Nat) (v : Byte) (s : State) : Result :=
  need 2 s <| fit (n + sk) s <|
    andThen (putBlocks s.blk (List.replicate n v) s) fun s' =>
      retire (n + sk) 2 (s'.skipBlocks (s.blk + n) sk)

/-- REPEAT, SIX_BIT layout (42_opcode_decoder.md R179). -/
def execRepeatByte (n : Nat) (v : Byte) (s : State) : Result := replicateThenSkip n 0 v s

/-- REPEATSKIP, SIX_BIT layout (42_opcode_decoder.md R181). -/
def execRepeatSkip (n sk : Nat) (v : Byte) (s : State) : Result := replicateThenSkip n sk v s

/-- REPEAT7, SEVEN_BIT layout (42_opcode_decoder.md R180). -/
def execRepeat7 (n : Nat) (v : Byte) (s : State) : Result := replicateThenSkip n 0 v s

end Sys2Proof.Machine
end

