-- ==== Sys2Proof/Machine/Skips.lean ====
section
/-! DEFINITION. The meaning of LONGSKIP, the instruction that only skips. -/

namespace Sys2Proof.Machine

/-- LONGSKIP (42_opcode_decoder.md R176). -/
def execLongSkip (n : Nat) (s : State) : Result :=
  need 2 s <| fit n s <| retire n 2 (s.skipBlocks s.blk n)

end Sys2Proof.Machine
end

