-- ==== Sys2Proof/Machine/Dispatch.lean ====
section
/-! DEFINITION. The dispatch of 42_opcode_decoder.md R171: one arm per instruction. -/

namespace Sys2Proof.Machine

def exec (i : Instr) (s : State) : Host.Outcome State Fault Refusal :=
  match i with
  | .longSkip n => Sys2Proof.Machine.execLongSkip n s
  | .skipCopy sk d => Sys2Proof.Machine.execSkipCopy sk d s
  | .longCopy d => Sys2Proof.Machine.execLongCopy d s
  | .copySkip d sk => Sys2Proof.Machine.execCopySkip d sk s
  | .repeatByte n v => Sys2Proof.Machine.execRepeatByte n v s
  | .repeatSkip n sk v => Sys2Proof.Machine.execRepeatSkip n sk v s
  | .repeat7 n v => Sys2Proof.Machine.execRepeat7 n v s

end Sys2Proof.Machine
end

