-- ==== Sys2Proof/Machine/Runs.lean ====
section
/-! DEFINITION. The first three stages of the encoder: the DeltaAnalyzer, Pass A and Pass B (40_delta_and_collapse.md). Each is a pure
function: a pass reads the previous pass's sequence and returns a new one. -/

namespace Sys2Proof.Machine

/-- A classified element (00_scope.md R14). -/
inductive Elem where
  | skip
  | lit (b : Byte)
  deriving DecidableEq, Repr

/-- A run (00_scope.md R14): `SKIPR(c)`, `REP(v, c)`, `LIT(b)`. Pass A's output has no `rep`. -/
inductive Run where
  | skip (c : Nat)
  | rep (v : Byte) (c : Nat)
  | lit (b : Byte)
  deriving DecidableEq, Repr

/-- The run's count (40_delta_and_collapse.md R110(a)). -/
def Run.count : Run → Nat
  | .skip c => c
  | .rep _ c => c
  | .lit _ => 1

/-- The classified sequence of a raster against the previous one, byte for byte (40_delta_and_collapse.md R100). -/
def classifyAgainst : List Byte → List Byte → List Elem
  | p :: prev, c :: cur => (if p = c then .skip else .lit c) :: classifyAgainst prev cur
  | [], _ => []
  | _ :: _, [] => []

/-- `Classify(cur)` (40_delta_and_collapse.md R100, R101): the classified sequence, or the record of LengthMismatch. -/
def classify (s : State) (cur : List Byte) : Except EInfo (List Elem) :=
  if s.prevValid = false then .ok (cur.map .lit)
  else if s.prev.length ≠ cur.length then
    .error { frame := s.eframes, prevLen := s.prev.length, curLen := cur.length, blocks := none }
  else .ok (classifyAgainst s.prev cur)

/-- A merged count `m` cut into chunks of at most `k`: ⌊m/k⌋ chunks of `k`, then `m mod k` when it is not 0
(40_delta_and_collapse.md R104, R108; 41_opcode_encoder.md R143). -/
def chunks (k m : Nat) : List Nat :=
  List.replicate (m / k) k ++ (if m % k = 0 then [] else [m % k])

/-- A merged Skip run of count `m` as Pass A emits it; `b` is the raster byte of its last element (40_delta_and_collapse.md R104,
and R105 for a count of 1). -/
def mergedSkip (m : Nat) (b : Byte) : List Run :=
  if m = 1 then [.lit b] else (chunks Config.skipChunk m).map .skip

/-- Pass A's scan: `m` adjacent `SKIP` elements have been read and not yet emitted, the last one over raster byte `b`
(40_delta_and_collapse.md R102, R103). -/
def passAScan (m : Nat) (b : Byte) (es : List (Elem × Byte)) : List Run :=
  match es with
  | [] => mergedSkip m b
  | (.skip, c) :: es' => passAScan (m + 1) c es'
  | (.lit v, _) :: es' => mergedSkip m b ++ .lit v :: passAScan 0 0 es'

/-- `PassA(E, cur)` (40_delta_and_collapse.md R102). -/
def passA (es : List Elem) (cur : List Byte) : List Run := passAScan 0 0 (es.zip cur)

/-- A merged group of `m` identical literals as Pass B emits it (40_delta_and_collapse.md R107, R108). -/
def mergedLit (m : Nat) (v : Byte) : List Run :=
  if m < Config.repeatMin then List.replicate m (.lit v) else (chunks Config.repeatChunk m).map (.rep v)

/-- Pass B's scan: `m` adjacent `LIT(v)` runs have been read and not yet emitted (40_delta_and_collapse.md R106, R109; a `REP`
run passes through like a `SKIPR`, R110(f)). -/
def passBScan (m : Nat) (v : Byte) (rs : List Run) : List Run :=
  match rs with
  | [] => mergedLit m v
  | .lit b :: rs' => if b = v then passBScan (m + 1) v rs' else mergedLit m v ++ passBScan 1 b rs'
  | .skip c :: rs' => mergedLit m v ++ .skip c :: passBScan 0 v rs'
  | .rep w c :: rs' => mergedLit m v ++ .rep w c :: passBScan 0 v rs'

/-- `PassB(A)` (40_delta_and_collapse.md R106). -/
def passB (rs : List Run) : List Run := passBScan 0 0 rs

end Sys2Proof.Machine
end

