-- ==== Sys2Proof/Machine/Select.lean ====
section
/-! DEFINITION. The OpcodeEncoder's selection walk and padding (41_opcode_encoder.md R130 to R143). -/

namespace Sys2Proof.Machine

/-- The bytes of the `LIT` runs at the head of a run sequence (41_opcode_encoder.md R131, the maximal sequence). -/
def litPrefix : List Run → List Byte
  | [] => []
  | .lit b :: rs => b :: litPrefix rs
  | .skip _ :: _ => []
  | .rep _ _ :: _ => []

/-- The Literal-run at the head: at most 256 literals from the left (41_opcode_encoder.md R131); its length is `LitLen`. -/
def literalRun (rs : List Run) : List Byte := (litPrefix rs).take Config.longMax

/-- The next run when it is a `SKIPR(s)` with s ≤ 7, with the runs after it: the look-ahead of 41_opcode_encoder.md R132 and R138. -/
def shortSkip : List Run → Option (Nat × List Run)
  | .skip s :: rs => if s ≤ Config.shortMax then some (s, rs) else none
  | [] => none
  | .rep _ _ :: _ => none
  | .lit _ :: _ => none

/-- The instruction for `REP(v, n)` and the runs left after it (41_opcode_encoder.md R132, R133, R134). -/
def selectRep (v : Byte) (n : Nat) (rest : List Run) : Instr × List Run :=
  if n ≤ Config.shortMax then
    match shortSkip rest with
    | some (s, rest') => (.repeatSkip n s v, rest')
    | none => (.repeatSkip n 0 v, rest)
  else (.repeatByte n v, rest)

/-- The instruction for `SKIPR(s)` and the runs left after it (41_opcode_encoder.md R135, R136, R137). -/
def selectSkip (s : Nat) (rest : List Run) : Instr × List Run :=
  if s ≤ Config.shortMax then
    if (literalRun rest).length ≤ Config.shortMax then
      (.skipCopy s (literalRun rest), rest.drop (literalRun rest).length)
    else (.skipCopy s [], rest)
  else (.longSkip s, rest)

/-- The instruction for a Literal-run at the head of `rs` and the runs left after it (41_opcode_encoder.md R138, R139, R140). -/
def selectLit (rs : List Run) : Instr × List Run :=
  if (literalRun rs).length ≤ Config.shortMax then
    match shortSkip (rs.drop (literalRun rs).length) with
    | some (s, rest') => (.copySkip (literalRun rs) s, rest')
    | none => (.copySkip (literalRun rs) 0, rs.drop (literalRun rs).length)
  else (.longCopy (literalRun rs), rs.drop (literalRun rs).length)

/-- One position of the walk: the kind of the run picks the rule (41_opcode_encoder.md R130, R141). -/
def selectOne (r : Run) (rest : List Run) : Instr × List Run :=
  match r with
  | .rep v n => selectRep v n rest
  | .skip s => selectSkip s rest
  | .lit b => selectLit (.lit b :: rest)

/-- The walk over the runs; every position consumes at least one run, so the number of runs is fuel enough. -/
def selectWalk : Nat → List Run → List Instr
  | 0, _ => []
  | _ + 1, [] => []
  | k + 1, r :: rest => (selectOne r rest).1 :: selectWalk k (selectOne r rest).2

/-- `Select(Rn)`: the instruction list I (41_opcode_encoder.md R130); `blocksEmitted` is `advSum I` (R142). -/
def select (rs : List Run) : List Instr := selectWalk rs.length rs

/-- `Pad(be)` for the frame size `fb`: LongSkip chunks of 256 and the remainder (41_opcode_encoder.md R143, C2). -/
def pad (fb be : Nat) : List Instr := (chunks Config.longMax (fb - be)).map .longSkip

end Sys2Proof.Machine
end

