-- ==== Sys2Proof/Machine/EncodeFrame.lean ====
section
/-! DEFINITION. The encoder agent's transaction `EncodeFrame(cur)` (41_opcode_encoder.md R144 to R146). -/

namespace Sys2Proof.Machine

/-- The instruction list I of a classified raster: Pass A, Pass B, the selection walk (41_opcode_encoder.md R146). -/
def frameInstrs (es : List Elem) (raster : List Byte) : List Instr := select (passB (passA es raster))

/-- The commit of 41_opcode_encoder.md R145. -/
def State.commit (bytes raster : List Byte) (s : State) : State :=
  { s with out := s.out ++ bytes, prev := raster, prevValid := true, eframes := s.eframes + 1 }

/-- BlockAccountingMismatch with the record of 41_opcode_encoder.md R146 (60_exceptions.md R212). -/
def State.raiseAccounting (raster : List Byte) (blocks : Nat) (s : State) : State :=
  s.raiseEnc .blockAccountingMismatch
    { frame := s.eframes, prevLen := s.prev.length, curLen := raster.length, blocks := some blocks }

/-- From the selected instructions on: the two checks, padding and commit (41_opcode_encoder.md R143 to R146). -/
def State.padAndCommit (is : List Instr) (raster : List Byte) (s : State) : State :=
  if advSum is > s.cfg.fb then s.raiseAccounting raster (advSum is)
  else if advSum is + advSum (pad s.cfg.fb (advSum is)) ≠ s.cfg.fb then
    s.raiseAccounting raster (advSum is + advSum (pad s.cfg.fb (advSum is)))
  else s.commit (encodeAll (is ++ pad s.cfg.fb (advSum is))) raster

/-- `EncodeFrame(cur)` (41_opcode_encoder.md R146); without effect when ESTATE = FAULT (60_exceptions.md R221). -/
def State.encodeFrame (raster : List Byte) (s : State) : State :=
  if s.estate = .fault then s
  else
    match classify s raster with
    | .error info => s.raiseEnc .lengthMismatch info
    | .ok es => s.padAndCommit (frameInstrs es raster) raster

end Sys2Proof.Machine
end

