-- ==== Sys2Proof/Machine/Transactions.lean ====
section
/-! DEFINITION. The host's four transactions (00_scope.md R5): Reset (70_reset_and_hazards.md R240 to R242), EncodeFrame
(41_opcode_encoder.md R146), DecLoad (42_opcode_decoder.md R170), DecStep (R171, R182, R183). -/

namespace Sys2Proof.Machine

/-- `Reset(cfg)` (70_reset_and_hazards.md R240, R241); DM's bytes are drawn anew (10_state.md R31, log 1). -/
def doReset (cfg : Cfg) (s : State) : Result :=
  if cfg.legal then .next (State.afterReset cfg (s.resetCount + 1) s.hostQueue) else .refused .illegalConfig

/-- A transaction other than Reset: refused before the first Reset (70_reset_and_hazards.md R242). -/
def afterFirstReset (s : State) (r : Result) : Result := if s.resetDone then r else .refused .beforeReset

/-- `EncodeFrame(cur)` (41_opcode_encoder.md R146). -/
def doEncodeFrame (raster : List Byte) (s : State) : Result := afterFirstReset s (.next (s.encodeFrame raster))

/-- What `DecLoad(stream)` sets (42_opcode_decoder.md R170). -/
def State.load (stream : List Byte) (s : State) : State :=
  { s with inp := stream, cur := 0, blk := 0, dframes := 0, trace := [], dfault := .none, dfinfo := none, dstate := .run }

/-- `DecLoad(stream)`: allowed in IDLE or DONE, refused in RUN or FAULT (42_opcode_decoder.md R170). -/
def doDecLoad (stream : List Byte) (s : State) : Result :=
  afterFirstReset s <|
    match s.dstate with
    | .idle => .next (s.load stream)
    | .done => .next (s.load stream)
    | .run => .refused .decoderBusy
    | .fault => .refused .decoderBusy

/-- `EndOfStream()` (42_opcode_decoder.md R183). -/
def State.endOfStream (s : State) : State := if s.blk = 0 then { s with dstate := .done } else s.raiseUnderflow 1

/-- The instruction at `cur`: its bytes are read from `IN` (42_opcode_decoder.md R171). -/
def State.fetch (s : State) : Decoded := decode s.cfg.layout (s.inp.drop s.cur)

/-- Run the fetched instruction; one that is cut short raises StreamUnderflow (42_opcode_decoder.md R172, 60_exceptions.md R217). -/
def runFetched (f : Decoded) (s : State) : Result :=
  match f with
  | .ok (i, _) => exec i s
  | .error (.truncated k) => .next (s.raiseUnderflow k)

/-- `DecStep()` (42_opcode_decoder.md R171); no effect outside RUN (R182). -/
def doDecStep (s : State) : Result :=
  afterFirstReset s <|
    if s.dstate ≠ .run then .next s
    else if s.cur = s.inp.length then .next s.endOfStream
    else runFetched s.fetch s

/-- One transaction of the host (00_scope.md R5). -/
def runTransaction (t : Transaction) (s : State) : Result :=
  match t with
  | .reset cfg => doReset cfg s
  | .encodeFrame raster => doEncodeFrame raster s
  | .decLoad stream => doDecLoad stream s
  | .decStep => doDecStep s

/-- The host's oldest queued transaction is issued; when none is queued the host issues DecStep (log 3). -/
def hostStep (s : State) : Result :=
  match s.hostQueue with
  | [] => runTransaction .decStep s
  | t :: ts => runTransaction t { s with hostQueue := ts }

/-- `IN` with `bytes` stored at the cursor (used by withFetchWord, log 6). -/
def storeAtCursor (s : State) (bytes : List Byte) : List Byte :=
  s.inp.take s.cur ++ bytes ++ s.inp.drop (s.cur + bytes.length)

end Sys2Proof.Machine
end

