-- ==== Sys2Proof/Machine/Step.lean ====
section
/-! DEFINITION. One step of the machine: one transaction (00_scope.md R5). -/

namespace Sys2Proof.Machine

/-- One step: the host's next transaction (00_scope.md R5, log 3). -/
def step (s : State) : Host.Outcome State Fault Refusal := hostStep s

/-- `s` with the instruction of a table word stored in `IN` at the cursor, the decoder running and the host issuing DecStep: what
DecLoad of a stream that starts with that instruction gives from reset (log 6). -/
def State.withFetchWord (s : State) (nbits w : Nat) : State :=
  { s with
    inp := storeAtCursor s (tableBytes nbits w)
    cur := min s.cur s.inp.length
    dstate := .run
    resetDone := true
    hostQueue := [] }

end Sys2Proof.Machine
end

