-- ==== Sys2Proof/Machine/Listing.lean ====
section
/-! DEFINITION. The listing syntax of 30_encoding.md R87: the lines of a listing, the bytes they pack as, and the text of an
instruction line. The block itself never reads a listing. -/

namespace Sys2Proof.Machine

/-- A line of a listing (30_encoding.md R87). -/
inductive Line where
  /-- An instruction line. -/
  | instr (i : Instr)
  /-- `.byte 0xNN, …` -/
  | bytes (bs : List Byte)
  /-- `.frame` -/
  | frame
  /-- `; text` -/
  | comment (text : String)
  deriving DecidableEq, Repr

/-- What a line packs as (30_encoding.md R87). -/
def Line.pack : Line → List Byte
  | .instr i => encode i
  | .bytes bs => bs
  | .frame => []
  | .comment _ => []

/-- The bytes of a listing. -/
def assemble (ls : List Line) : List Byte := ls.flatMap Line.pack

/-- One upper-case hexadecimal digit. -/
def hexDigit (n : Nat) : Char := (("0123456789ABCDEF".toList)[n % 16]?).getD '0'

/-- A byte written `0xNN` (30_encoding.md R87). -/
def showByte (b : Byte) : String := "0x" ++ String.ofList [hexDigit (b.toNat / 16), hexDigit (b.toNat % 16)]

/-- `: d0, …` when there are data bytes, else nothing. -/
def showData (d : List Byte) : String := if d = [] then "" else " : " ++ String.intercalate ", " (d.map showByte)

/-- The text of an instruction line: counts are block counts, never the biased fields (30_encoding.md R87). -/
def showInstr : Instr → String
  | .longSkip n => "LONGSKIP " ++ toString n
  | .skipCopy s d => "SKIPCOPY " ++ toString s ++ ", " ++ toString d.length ++ showData d
  | .longCopy d => "LONGCOPY " ++ toString d.length ++ showData d
  | .copySkip d s => "COPYSKIP " ++ toString d.length ++ ", " ++ toString s ++ showData d
  | .repeatByte n v => "REPEAT " ++ toString n ++ ", " ++ showByte v
  | .repeatSkip n s v => "REPEATSKIP " ++ toString n ++ ", " ++ toString s ++ ", " ++ showByte v
  | .repeat7 n v => "REPEAT7 " ++ toString n ++ ", " ++ showByte v

/-- The text of a listing line (30_encoding.md R87). -/
def Line.show : Line → String
  | .instr i => showInstr i
  | .bytes bs => ".byte " ++ String.intercalate ", " (bs.map showByte)
  | .frame => ".frame"
  | .comment text => "; " ++ text

end Sys2Proof.Machine
end

