-- ==== Sys2Proof/Safety.lean ====
section
/-! DEFINITION. The terms the claims use: what an instruction that completes leaves (`Effect`), fault states spelled out, the block
coverage of a trace, the machine's invariant, the agents' views, and what a run sequence stands for. -/

namespace Sys2Proof.Machine

/-! ### Events and display contents -/

/-- `Put(a, d0), Put(a+1, d1), …` (10_state.md R29). -/
def putEvents (a : Nat) (d : List Byte) : List Event :=
  match d with
  | [] => []
  | v :: d' => .put a v :: putEvents (a + 1) d'

/-- `Adv(a, n)` when n > 0, no event otherwise (10_state.md R29). -/
def skipEvents (a n : Nat) : List Event := if n = 0 then [] else [.adv a n]

/-- DM's bytes after the `Put` events of a trace, from the bytes `m` before (10_state.md R31). -/
def replay (m : Nat → Byte) (es : List Event) : Nat → Byte :=
  match es with
  | [] => m
  | .put a v :: es' => replay (fun b => if b = a then v else m b) es'
  | .adv _ _ :: es' => replay m es'
  | .frameEnd _ :: es' => replay m es'

/-- Follow a trace from (frame, block): every event must start at the block reached, skip or write at least one block, stay inside
the frame, and a frame must end exactly at FB; answers where it leads, none where there is a gap or an overlap (10_state.md R29,
30_encoding.md R82 "no gap, no overlap"). -/
def followTrace (fb : Nat) (k p : Nat) (es : List Event) : Option (Nat × Nat) :=
  match es with
  | [] => some (k, p)
  | .adv a n :: es' => if a = p ∧ 1 ≤ n ∧ p + n ≤ fb then followTrace fb k (p + n) es' else none
  | .put a _ :: es' => if a = p ∧ p < fb then followTrace fb k (p + 1) es' else none
  | .frameEnd j :: es' => if j = k ∧ p = fb then followTrace fb (k + 1) 0 es' else none

/-! ### One instruction -/

/-- `t` is `s` after an instruction that did not fault: `len` bytes long, advancing `adv` blocks, writing `data` to the blocks from
`base` on, with the events `events`, and then `Boundary()` (42_opcode_decoder.md R174 to R181). -/
structure Effect (s t : State) (len adv base : Nat) (data : List Byte) (events : List Event) : Prop where
  cur_eq : t.cur = s.cur + len
  blk_eq : t.blk = if s.blk + adv = s.cfg.fb then 0 else s.blk + adv
  dframes_eq : t.dframes = if s.blk + adv = s.cfg.fb then s.dframes + 1 else s.dframes
  trace_eq : t.trace = s.trace ++ events ++ (if s.blk + adv = s.cfg.fb then [.frameEnd s.dframes] else [])
  dm_eq : ∀ a, t.dmByte a = if base ≤ a ∧ a < base + data.length then data.getD (a - base) 0 else s.dmByte a
  rest_eq : t = { s with cur := t.cur, blk := t.blk, dframes := t.dframes, trace := t.trace, dm := t.dm }

/-- The events of an instruction that starts at block `blk`: the skip before, the writes, the skip after
(42_opcode_decoder.md R175 to R181). -/
def instrEvents (i : Instr) (blk : Nat) : List Event :=
  skipEvents blk i.skipBefore ++ putEvents (putBase i blk) i.putBytes ++ skipEvents (putBase i blk + i.put) i.skipAfter

/-- `s` stopped by StreamUnderflow needing `k` bytes: nothing else changes (60_exceptions.md R219, R220). -/
def underflowState (s : State) (k : Nat) : State :=
  { s with
    dstate := .fault
    dfault := .streamUnderflow
    dfinfo := some { cur := s.cur, blk := s.blk, need := some k, adv := none } }

/-- The need recorded when only the first `m` ≥ 1 bytes of an instruction are there: the bytes of the whole instruction, but 2 for
a LongCopy whose count byte is missing (42_opcode_decoder.md R178, 60_exceptions.md R217). -/
def prefixNeed (i : Instr) (m : Nat) : Nat :=
  match i with
  | .longCopy d => if m = 1 then 2 else 2 + d.length
  | .longSkip _ => 2
  | .skipCopy _ d => 1 + d.length
  | .copySkip d _ => 1 + d.length
  | .repeatByte _ _ => 2
  | .repeatSkip _ _ _ => 2
  | .repeat7 _ _ => 2

/-- `s` stopped by FrameOverrun of an instruction advancing `n` blocks (60_exceptions.md R219, R220). -/
def overrunState (s : State) (n : Nat) : State :=
  { s with
    dstate := .fault
    dfault := .frameOverrun
    dfinfo := some { cur := s.cur, blk := s.blk, need := none, adv := some n } }

/-! ### The agents' views (00_scope.md R6) -/

/-- The two states give the encoder the same view: its own fields and the frame size. The layout is no part of it (00_scope.md R9). -/
structure SameEncoder (s t : State) : Prop where
  fb_eq : s.cfg.fb = t.cfg.fb
  estate_eq : s.estate = t.estate
  efault_eq : s.efault = t.efault
  efinfo_eq : s.efinfo = t.efinfo
  prevValid_eq : s.prevValid = t.prevValid
  prev_eq : s.prev = t.prev
  out_eq : s.out = t.out
  eframes_eq : s.eframes = t.eframes

/-- The two states give the decoder the same view: its own fields, the configuration and DM. -/
structure SameDecoder (s t : State) : Prop where
  cfg_eq : s.cfg = t.cfg
  dstate_eq : s.dstate = t.dstate
  dfault_eq : s.dfault = t.dfault
  dfinfo_eq : s.dfinfo = t.dfinfo
  inp_eq : s.inp = t.inp
  cur_eq : s.cur = t.cur
  blk_eq : s.blk = t.blk
  dframes_eq : s.dframes = t.dframes
  trace_eq : s.trace = t.trace
  dm_eq : s.dm = t.dm
  draw_eq : s.resetCount = t.resetCount
  reset_eq : s.resetDone = t.resetDone

/-! ### The invariant -/

/-- What holds of every state from a reset on: a completed Reset (70_reset_and_hazards.md R242) with a legal configuration (R241), the
bounds of 10_state.md R30 (the spec's own inference), a previous raster inside the frame (41_opcode_encoder.md R144, R145) that
exists exactly when a frame was encoded (10_state.md R25, R26), fault fields that agree with the agents' states (R24, R28), DONE only
at a clean end (42_opcode_decoder.md R183), DM as the model keeps it, a strictly rising list (log 2), with addresses 0..FB−1
(10_state.md R31), and a trace that covers its frames without gap or overlap and has reached `dframes` and `blk` (R29). -/
structure State.Inv (s : State) : Prop where
  reset_done : s.resetDone = true
  legal : s.cfg.legal
  cur_le : s.cur ≤ s.inp.length
  blk_lt : s.blk < s.cfg.fb
  dframes_le : s.dframes ≤ s.cur
  eframes_le : s.eframes ≤ s.out.length
  prev_le : s.prev.length ≤ s.cfg.fb
  prev_iff : s.prevValid = true ↔ 0 < s.eframes
  efault_iff : s.estate = .fault ↔ s.efault ≠ .none
  efinfo_iff : s.efinfo.isSome = true ↔ s.efault ≠ .none
  dfault_iff : s.dstate = .fault ↔ s.dfault ≠ .none
  dfinfo_iff : s.dfinfo.isSome = true ↔ s.dfault ≠ .none
  done_end : s.dstate = .done → s.cur = s.inp.length ∧ s.blk = 0
  dm_wf : Memory.wf s.dm
  dm_in : ∀ c ∈ s.dm, c.1 < s.cfg.fb
  trace_covers : followTrace s.cfg.fb 0 0 s.trace = some (s.dframes, s.blk)

/-! ### The encoder's sequences -/

/-- A run sequence expanded against a previous raster (40_delta_and_collapse.md R110(d)). -/
def expandRuns (rs : List Run) (prev : List Byte) : List Byte :=
  match rs with
  | [] => []
  | .skip c :: rs' => prev.take c ++ expandRuns rs' (prev.drop c)
  | .rep v c :: rs' => List.replicate c v ++ expandRuns rs' (prev.drop c)
  | .lit b :: rs' => b :: expandRuns rs' (prev.drop 1)

/-- The sequence starts with a `LIT` run. -/
def startsWithLit : List Run → Bool
  | [] => false
  | .lit _ :: _ => true
  | .skip _ :: _ => false
  | .rep _ _ :: _ => false

/-- The sequence starts with a `SKIPR(s)`, s ≤ 7. -/
def startsWithShortSkip : List Run → Bool
  | [] => false
  | .lit _ :: _ => false
  | .skip s :: _ => s ≤ 7
  | .rep _ _ :: _ => false

/-- The counts stay inside the chunk limits (40_delta_and_collapse.md R110(b), (c)). -/
def runInBounds : Run → Bool
  | .skip c => 1 ≤ c && c ≤ 256
  | .rep _ c => 1 ≤ c && c ≤ 64
  | .lit _ => true

/-- A merged count cut into chunks, as 40_delta_and_collapse.md R104 and R108 put it: ⌊m/k⌋ chunks of `k`, then the remainder. -/
def chunked (mk : Nat → Run) (k m : Nat) : List Run :=
  List.replicate (m / k) (mk k) ++ (if m % k = 0 then [] else [mk (m % k)])

/-- The encodings the encoder emits for a run sequence (30_encoding.md R84, column "emitted by the encoder"). -/
def canonical : Instr → Bool
  | .longSkip n => 8 ≤ n && n ≤ 256
  | .skipCopy s d => 1 ≤ s && s ≤ 7 && d.length ≤ 7
  | .longCopy d => 8 ≤ d.length && d.length ≤ 256
  | .copySkip d s => 1 ≤ d.length && d.length ≤ 7 && s ≤ 7
  | .repeatByte n _ => 8 ≤ n && n ≤ 64
  | .repeatSkip n s _ => 1 ≤ n && n ≤ 7 && s ≤ 7
  | .repeat7 _ _ => false

/-- The frames of an animation, encoded in order (41_opcode_encoder.md R146, 70_reset_and_hazards.md R244). -/
def encodeFrames (frames : List (List Byte)) (s : State) : State :=
  frames.foldl (fun s f => s.encodeFrame f) s

/-- The first `n` blocks of DM. -/
def dmBlocks (s : State) (n : Nat) : List Byte := (List.range n).map s.dmByte

end Sys2Proof.Machine
end

