-- ==== Sys2Proof/Certificates/Slice0/Obligations.lean ====
section
/-! DEFINITION. The statements for the provers, each from the numbered rules its docstring cites. -/

open Sys2Proof Sys2Proof.Machine

/-! ### Wire format -/

/-- Words written out from the formats of 30_encoding.md R72 to R78 decode to the instructions they stand for. -/
def Obligations.SpecWordsDecode : Prop :=
  (∀ l, decode l [0b00011010, 0xA1, 0xA2] = .ok (.skipCopy 3 [0xA1, 0xA2], [])) ∧
  (∀ l, decode l [0b00000000, 0x07] = .ok (.longSkip 8, [])) ∧
  (∀ l, decode l [0b01010110, 0x10, 0x20] = .ok (.copySkip [0x10, 0x20] 6, [])) ∧
  (∀ l, decode l [0b01000000, 0x01, 0xAB, 0xCD, 0xEE] = .ok (.longCopy [0xAB, 0xCD], [0xEE])) ∧
  decode .sixBit [0b10000111, 0xFF] = .ok (.repeatByte 8 0xFF, []) ∧
  decode .sixBit [0b11101011, 0xFF] = .ok (.repeatSkip 5 3 0xFF, []) ∧
  decode .sevenBit [0b11101011, 0xFF] = .ok (.repeat7 108 0xFF, [])

/-- Every opcode byte matches exactly one row of the opcode table under each layout, the row of its kind; decoding fails only for
want of bytes, and 258 bytes are always enough (30_encoding.md R79, R85). -/
def Obligations.EveryOpcodeByteDecodes : Prop :=
  (∀ (l : Layout) (b : Byte),
    (opcodeTable.filter fun r => r.applies l b).map OpcodeRow.mnemonic = [(decodeOpcode l b).mnemonic]) ∧
  (∀ (l : Layout) (bytes : List Byte) (k : Nat), decode l bytes = .error (.truncated k) → bytes.length < k ∧ k ≤ 258) ∧
  (∀ (l : Layout) (bytes : List Byte), 258 ≤ bytes.length → ∃ i rest, decode l bytes = .ok (i, rest))

/-- Decoding the packed bytes of an instruction gives back the same kind, counts and data, whatever follows, under a layout that has
the instruction (30_encoding.md R83, R79, R78; the last sentence of R83 is the spec's own inference). -/
def Obligations.DecodeUndoesEncode : Prop :=
  ∀ (l : Layout) (i : Instr) (rest : List Byte),
    i.wf = true → i.inLayout l = true → decode l (encode i ++ rest) = .ok (i, rest)

/-- What decodes is well formed, belongs to the layout, and its packed bytes are the bytes that were read: each byte sequence means
one instruction (30_encoding.md R79 to R84). -/
def Obligations.EncodeUndoesDecode : Prop :=
  ∀ (l : Layout) (bytes rest : List Byte) (i : Instr),
    decode l bytes = .ok (i, rest) → bytes = encode i ++ rest ∧ i.wf = true ∧ i.inLayout l = true

/-- The Repeat bytes of 1 to 64 blocks read as the same count under both layouts and have the same effect
(41_opcode_encoder.md R134, 42_opcode_decoder.md R180). -/
def Obligations.RepeatReadsAlikeUnderBothLayouts : Prop :=
  ∀ (n : Nat) (v : Byte) (rest : List Byte), 1 ≤ n → n ≤ 64 →
    decode .sixBit (encode (.repeatByte n v) ++ rest) = .ok (.repeatByte n v, rest) ∧
    decode .sevenBit (encode (.repeatByte n v) ++ rest) = .ok (.repeat7 n v, rest) ∧
    ∀ s : State, exec (.repeat7 n v) s = exec (.repeatByte n v) s

/-! ### The instructions -/

/-- LONGSKIP (42_opcode_decoder.md R176): its two bytes, StreamUnderflow without the count byte, FrameOverrun past the frame end, and
its effect otherwise. -/
def Obligations.LongSkipExecutes : Prop :=
  ∀ (N : Byte) (s : State),
    (∀ l rest, decode l (0x00 :: N :: rest) = .ok (.longSkip (N.toNat + 1), rest)) ∧
    (s.cur + 2 > s.inp.length → exec (.longSkip (N.toNat + 1)) s = .next (underflowState s 2)) ∧
    (s.cur + 2 ≤ s.inp.length → s.blk + (N.toNat + 1) > s.cfg.fb →
      exec (.longSkip (N.toNat + 1)) s = .next (overrunState s (N.toNat + 1))) ∧
    (s.cur + 2 ≤ s.inp.length → s.blk + (N.toNat + 1) ≤ s.cfg.fb →
      ∃ t, exec (.longSkip (N.toNat + 1)) s = .next t ∧
        Effect s t 2 (N.toNat + 1) s.blk [] [.adv s.blk (N.toNat + 1)])

/-- SKIPCOPY (42_opcode_decoder.md R175), for every S and every number C of data bytes but S = C = 0. -/
def Obligations.SkipCopyExecutes : Prop :=
  ∀ (S : BitVec 3) (d : List Byte) (s : State), d.length ≤ 7 → (S ≠ 0 ∨ d ≠ []) →
    (∀ l rest, decode l ((0b00#2 ++ S ++ BitVec.ofNat 3 d.length : Byte) :: (d ++ rest)) = .ok (.skipCopy S.toNat d, rest)) ∧
    (s.cur + (1 + d.length) > s.inp.length → exec (.skipCopy S.toNat d) s = .next (underflowState s (1 + d.length))) ∧
    (s.cur + (1 + d.length) ≤ s.inp.length → s.blk + (S.toNat + d.length) > s.cfg.fb →
      exec (.skipCopy S.toNat d) s = .next (overrunState s (S.toNat + d.length))) ∧
    (s.cur + (1 + d.length) ≤ s.inp.length → s.blk + (S.toNat + d.length) ≤ s.cfg.fb →
      ∃ t, exec (.skipCopy S.toNat d) s = .next t ∧
        Effect s t (1 + d.length) (S.toNat + d.length) (s.blk + S.toNat) d
          (skipEvents s.blk S.toNat ++ putEvents (s.blk + S.toNat) d))

/-- COPYSKIP (42_opcode_decoder.md R177), for every number C of data bytes and every S but C = S = 0. -/
def Obligations.CopySkipExecutes : Prop :=
  ∀ (d : List Byte) (S : BitVec 3) (s : State), d.length ≤ 7 → (d ≠ [] ∨ S ≠ 0) →
    (∀ l rest, decode l ((0b01#2 ++ BitVec.ofNat 3 d.length ++ S : Byte) :: (d ++ rest)) = .ok (.copySkip d S.toNat, rest)) ∧
    (s.cur + (1 + d.length) > s.inp.length → exec (.copySkip d S.toNat) s = .next (underflowState s (1 + d.length))) ∧
    (s.cur + (1 + d.length) ≤ s.inp.length → s.blk + (d.length + S.toNat) > s.cfg.fb →
      exec (.copySkip d S.toNat) s = .next (overrunState s (d.length + S.toNat))) ∧
    (s.cur + (1 + d.length) ≤ s.inp.length → s.blk + (d.length + S.toNat) ≤ s.cfg.fb →
      ∃ t, exec (.copySkip d S.toNat) s = .next t ∧
        Effect s t (1 + d.length) (d.length + S.toNat) s.blk d
          (putEvents s.blk d ++ skipEvents (s.blk + d.length) S.toNat))

/-- LONGCOPY (42_opcode_decoder.md R178), for every count byte N and its N + 1 data bytes: need 2 when the count byte is missing, need
3 + N when data bytes are. -/
def Obligations.LongCopyExecutes : Prop :=
  ∀ (N : Byte) (d : List Byte) (s : State), d.length = N.toNat + 1 →
    (∀ l rest, decode l (0x40 :: N :: (d ++ rest)) = .ok (.longCopy d, rest)) ∧
    (s.cur + 2 > s.inp.length → exec (.longCopy d) s = .next (underflowState s 2)) ∧
    (s.cur + 2 ≤ s.inp.length → s.cur + (3 + N.toNat) > s.inp.length →
      exec (.longCopy d) s = .next (underflowState s (3 + N.toNat))) ∧
    (s.cur + (3 + N.toNat) ≤ s.inp.length → s.blk + (N.toNat + 1) > s.cfg.fb →
      exec (.longCopy d) s = .next (overrunState s (N.toNat + 1))) ∧
    (s.cur + (3 + N.toNat) ≤ s.inp.length → s.blk + (N.toNat + 1) ≤ s.cfg.fb →
      ∃ t, exec (.longCopy d) s = .next t ∧
        Effect s t (3 + N.toNat) (N.toNat + 1) s.blk d (putEvents s.blk d))

/-- REPEAT under SIX_BIT (42_opcode_decoder.md R179), for every field R and data byte V: V is written R + 1 times. -/
def Obligations.RepeatExecutes : Prop :=
  ∀ (R : BitVec 6) (V : Byte) (s : State),
    (∀ rest, decode .sixBit ((0b10#2 ++ R : Byte) :: V :: rest) = .ok (.repeatByte (R.toNat + 1) V, rest)) ∧
    (s.cur + 2 > s.inp.length → exec (.repeatByte (R.toNat + 1) V) s = .next (underflowState s 2)) ∧
    (s.cur + 2 ≤ s.inp.length → s.blk + (R.toNat + 1) > s.cfg.fb →
      exec (.repeatByte (R.toNat + 1) V) s = .next (overrunState s (R.toNat + 1))) ∧
    (s.cur + 2 ≤ s.inp.length → s.blk + (R.toNat + 1) ≤ s.cfg.fb →
      ∃ t, exec (.repeatByte (R.toNat + 1) V) s = .next t ∧
        Effect s t 2 (R.toNat + 1) s.blk (List.replicate (R.toNat + 1) V)
          (putEvents s.blk (List.replicate (R.toNat + 1) V)))

/-- REPEAT under SEVEN_BIT (42_opcode_decoder.md R180), for every field R and data byte V: V is written R + 1 times. -/
def Obligations.RepeatSevenBitExecutes : Prop :=
  ∀ (R : BitVec 7) (V : Byte) (s : State),
    (∀ rest, decode .sevenBit ((0b1#1 ++ R : Byte) :: V :: rest) = .ok (.repeat7 (R.toNat + 1) V, rest)) ∧
    (s.cur + 2 > s.inp.length → exec (.repeat7 (R.toNat + 1) V) s = .next (underflowState s 2)) ∧
    (s.cur + 2 ≤ s.inp.length → s.blk + (R.toNat + 1) > s.cfg.fb →
      exec (.repeat7 (R.toNat + 1) V) s = .next (overrunState s (R.toNat + 1))) ∧
    (s.cur + 2 ≤ s.inp.length → s.blk + (R.toNat + 1) ≤ s.cfg.fb →
      ∃ t, exec (.repeat7 (R.toNat + 1) V) s = .next t ∧
        Effect s t 2 (R.toNat + 1) s.blk (List.replicate (R.toNat + 1) V)
          (putEvents s.blk (List.replicate (R.toNat + 1) V)))

/-- REPEATSKIP (42_opcode_decoder.md R181), for every R and S, the zero-advance R = S = 0 and R = 0 included. -/
def Obligations.RepeatSkipExecutes : Prop :=
  ∀ (R S : BitVec 3) (V : Byte) (s : State),
    (∀ rest, decode .sixBit ((0b11#2 ++ R ++ S : Byte) :: V :: rest) = .ok (.repeatSkip R.toNat S.toNat V, rest)) ∧
    (s.cur + 2 > s.inp.length → exec (.repeatSkip R.toNat S.toNat V) s = .next (underflowState s 2)) ∧
    (s.cur + 2 ≤ s.inp.length → s.blk + (R.toNat + S.toNat) > s.cfg.fb →
      exec (.repeatSkip R.toNat S.toNat V) s = .next (overrunState s (R.toNat + S.toNat))) ∧
    (s.cur + 2 ≤ s.inp.length → s.blk + (R.toNat + S.toNat) ≤ s.cfg.fb →
      ∃ t, exec (.repeatSkip R.toNat S.toNat V) s = .next t ∧
        Effect s t 2 (R.toNat + S.toNat) s.blk (List.replicate R.toNat V)
          (putEvents s.blk (List.replicate R.toNat V) ++ skipEvents (s.blk + R.toNat) S.toNat))

/-- Frame of the six writing instructions: no block of DM outside the written ones changes, and nothing else changes but the cursor,
the block counter, the frame counter, the trace, and the fault fields when the instruction faults (42_opcode_decoder.md R175, R177 to
R181, "State written"). -/
def Obligations.WritingInstructionFrame : Prop :=
  ∀ (i : Instr) (s t : State), exec i s = .next t →
    (match i with
      | .longSkip _ => False
      | .skipCopy _ _ => True | .longCopy _ => True | .copySkip _ _ => True
      | .repeatByte _ _ => True | .repeatSkip _ _ _ => True | .repeat7 _ _ => True) →
    (∀ a, ¬ (putBase i s.blk ≤ a ∧ a < putBase i s.blk + i.put) → t.dmByte a = s.dmByte a) ∧
    t = { s with
      dstate := t.dstate, dfault := t.dfault, dfinfo := t.dfinfo, cur := t.cur, blk := t.blk, dframes := t.dframes,
      trace := t.trace, dm := t.dm } ∧
    (t.dstate = s.dstate ∧ t.dfault = s.dfault ∧ t.dfinfo = s.dfinfo ∨ t.dstate = .fault)

/-- Frame of LONGSKIP: no byte of DM changes, and nothing else but the cursor, the two counters, the trace, and the fault fields when
it faults (42_opcode_decoder.md R176, "never `DM`"). -/
def Obligations.LongSkipFrame : Prop :=
  ∀ (n : Nat) (s t : State), exec (.longSkip n) s = .next t →
    (∀ a, t.dmByte a = s.dmByte a) ∧
    t = { s with
      dstate := t.dstate, dfault := t.dfault, dfinfo := t.dfinfo, cur := t.cur, blk := t.blk, dframes := t.dframes,
      trace := t.trace } ∧
    (t.dstate = s.dstate ∧ t.dfault = s.dfault ∧ t.dfinfo = s.dfinfo ∨ t.dstate = .fault)

/-- The trace only grows, and DM's bytes are those its new `Put` events write (10_state.md R29, R31). -/
def Obligations.PutEventsAreTheDmWrites : Prop :=
  ∀ (i : Instr) (s t : State), exec i s = .next t →
    ∃ es, t.trace = s.trace ++ es ∧ ∀ a, t.dmByte a = replay s.dmByte es a

/-! ### Steps of the decoder -/

/-- When the bytes at the cursor decode, the step that issues DecStep is exec of that instruction (42_opcode_decoder.md R171). That
the host issues DecStep when its queue is empty is the model's choice (log 3). -/
def Obligations.StepRunsDecodedInstruction : Prop :=
  ∀ (s : State) (i : Instr) (rest : List Byte),
    s.resetDone = true → s.dstate = .run → decode s.cfg.layout (s.inp.drop s.cur) = .ok (i, rest) →
    (s.hostQueue = [] → step s = exec i s) ∧
    (∀ ts, s.hostQueue = .decStep :: ts → step s = exec i { s with hostQueue := ts })

/-- When only a proper prefix of an instruction's bytes is left in IN, the step raises StreamUnderflow with the need of the rule, also
when the instruction would overrun the frame (42_opcode_decoder.md R172, 60_exceptions.md R213, R217). The empty queue makes the step
a DecStep: the model's choice (log 3). -/
def Obligations.TruncatedInstructionUnderflows : Prop :=
  ∀ (s : State) (i : Instr) (m : Nat),
    s.resetDone = true → s.dstate = .run → s.hostQueue = [] → i.wf = true → i.inLayout s.cfg.layout = true →
    1 ≤ m → m < (encode i).length → s.inp.drop s.cur = (encode i).take m →
    step s = .next (underflowState s (prefixNeed i m))

/-- DecStep at the end of IN: DONE at a frame boundary, StreamUnderflow with need 1 inside a frame (42_opcode_decoder.md R183). -/
def Obligations.EndOfStreamStops : Prop :=
  ∀ (s : State), s.resetDone = true → s.dstate = .run → s.cur = s.inp.length →
    (s.blk = 0 → runTransaction .decStep s = .next { s with dstate := .done }) ∧
    (s.blk ≠ 0 → runTransaction .decStep s = .next (underflowState s 1))

/-- DecStep outside RUN has no effect (42_opcode_decoder.md R182). -/
def Obligations.DecStepOutsideRunDoesNothing : Prop :=
  ∀ (s : State), s.resetDone = true → s.dstate ≠ .run → runTransaction .decStep s = .next s

/-- DecLoad in IDLE or DONE sets the decoder to the start of the stream and leaves everything else, DM included; in RUN or FAULT it
is refused (42_opcode_decoder.md R170). -/
def Obligations.DecLoadStartsTheStream : Prop :=
  ∀ (s : State) (stream : List Byte), s.resetDone = true →
    (s.dstate = .idle ∨ s.dstate = .done → runTransaction (.decLoad stream) s = .next { s with
      inp := stream, cur := 0, blk := 0, dframes := 0, trace := [], dfault := .none, dfinfo := none, dstate := .run }) ∧
    (s.dstate = .run ∨ s.dstate = .fault → runTransaction (.decLoad stream) s = .refused .decoderBusy)

/-- A step of a running decoder faults with the cursor kept, or leaves it RUN with the cursor advanced by exactly the length of the
decoded instruction, at least one byte (10_state.md R27, and the spec's own inference "or advances `cur` by at least 1",
42_opcode_decoder.md R185). -/
def Obligations.CursorAdvancesByInstructionLength : Prop :=
  ∀ (s t : State), s.dstate = .run → s.cur < s.inp.length → runTransaction .decStep s = .next t →
    (t.dstate = .fault ∧ t.cur = s.cur) ∨
    (t.dstate = .run ∧ ∃ i rest, decode s.cfg.layout (s.inp.drop s.cur) = .ok (i, rest) ∧ 1 ≤ i.byteLength ∧
      t.cur = s.cur + i.byteLength)

/-- At most as many DecStep transactions as bytes are left, and one, bring a running decoder out of RUN: the spec's own inference
"there is no decoder hang" (42_opcode_decoder.md R185). The steps of an empty queue are DecSteps: the model's choice (log 3). -/
def Obligations.DecoderTerminates : Prop :=
  ∀ (s : State), s.resetDone = true → s.hostQueue = [] → s.dstate = .run → s.cur ≤ s.inp.length →
    ∃ n t, n ≤ s.inp.length - s.cur + 1 ∧ Host.Core.run Sys2Proof.core n s = .next t ∧ t.dstate ≠ .run

/-- A DecStep that enters FAULT changes nothing but the three fault fields, and records where it stopped (60_exceptions.md R219,
R220). -/
def Obligations.DecoderFaultsArePrecise : Prop :=
  ∀ (s t : State), s.dstate ≠ .fault → runTransaction .decStep s = .next t → t.dstate = .fault →
    t = { s with dstate := .fault, dfault := t.dfault, dfinfo := t.dfinfo } ∧
    ((∃ k, t = underflowState s k) ∨ (∃ n, t = overrunState s n ∧ s.blk + n > s.cfg.fb))

/-! ### Reset and the host's transactions -/

/-- Reset with a legal configuration, in every state, sets every element to its reset value (70_reset_and_hazards.md R240,
10_state.md R34). That DM's unspecified bytes are drawn by number and that the host's queue stays are the model's own (log 1, log 3). -/
def Obligations.ResetSetsEveryField : Prop :=
  ∀ (cfg : Cfg) (s : State), cfg.legal →
    ∃ t, runTransaction (.reset cfg) s = .next t ∧
      t.resetDone = true ∧ t.cfg = cfg ∧ t.estate = .ready ∧ t.efault = .none ∧ t.efinfo = none ∧ t.prevValid = false ∧
      t.prev = [] ∧ t.out = [] ∧ t.eframes = 0 ∧ t.dstate = .idle ∧ t.dfault = .none ∧ t.dfinfo = none ∧ t.inp = [] ∧
      t.cur = 0 ∧ t.blk = 0 ∧ t.dframes = 0 ∧ t.trace = [] ∧
      t.resetCount = s.resetCount + 1 ∧ t.hostQueue = s.hostQueue ∧
      ∀ a, a < t.cfg.fb → t.dmRead a = some (Config.freeByte t.resetCount a)

/-- The legal configurations are W ≥ 1, H ≥ 1, W·H mod 8 = 0 with either layout; any other Reset is refused; the rule's worked
examples (70_reset_and_hazards.md R241). -/
def Obligations.OnlyLegalConfigurationsReset : Prop :=
  (∀ (cfg : Cfg) (s : State), (1 ≤ cfg.w ∧ 1 ≤ cfg.h ∧ cfg.w * cfg.h % 8 = 0) → ∃ t, runTransaction (.reset cfg) s = .next t) ∧
  (∀ (cfg : Cfg) (s : State), ¬ (1 ≤ cfg.w ∧ 1 ≤ cfg.h ∧ cfg.w * cfg.h % 8 = 0) →
    runTransaction (.reset cfg) s = .refused .illegalConfig) ∧
  (∀ l, (Cfg.mk 128 64 l).legal ∧ (Cfg.mk 128 64 l).fb = 1024) ∧
  (∀ l, (Cfg.mk 128 60 l).legal ∧ (Cfg.mk 128 60 l).fb = 960 ∧ (Cfg.mk 128 60 l).rlNom = 896) ∧
  (∀ l, (Cfg.mk 10 12 l).legal ∧ (Cfg.mk 10 12 l).fb = 15 ∧ (Cfg.mk 10 12 l).rlNom = 10) ∧
  (∀ l, ¬ (Cfg.mk 5 3 l).legal)

/-- Before the first Reset every other transaction is refused, until a Reset has completed (70_reset_and_hazards.md R242). -/
def Obligations.NothingBeforeTheFirstReset : Prop :=
  ∀ (s : State), s.resetDone = false →
    (∀ raster, runTransaction (.encodeFrame raster) s = .refused .beforeReset) ∧
    (∀ stream, runTransaction (.decLoad stream) s = .refused .beforeReset) ∧
    runTransaction .decStep s = .refused .beforeReset ∧
    (∀ cfg, cfg.legal → ∃ t, runTransaction (.reset cfg) s = .next t ∧ t.resetDone = true)

/-- Faults are sticky and independent: EncodeFrame in ESTATE = FAULT and DecStep in DSTATE = FAULT have no effect, DecLoad in FAULT is
refused, no transaction but Reset clears a fault, Reset clears both, and neither agent's transactions touch the other's fault state
(60_exceptions.md R221). -/
def Obligations.FaultsAreSticky : Prop :=
  ∀ (s : State), s.resetDone = true →
    (s.estate = .fault → ∀ raster, runTransaction (.encodeFrame raster) s = .next s) ∧
    (s.dstate = .fault → runTransaction .decStep s = .next s ∧
      ∀ stream, runTransaction (.decLoad stream) s = .refused .decoderBusy) ∧
    (∀ tr t, (∀ cfg, tr ≠ .reset cfg) → runTransaction tr s = .next t →
      (s.estate = .fault → t.estate = .fault ∧ t.efault = s.efault ∧ t.efinfo = s.efinfo) ∧
      (s.dstate = .fault → t.dstate = .fault ∧ t.dfault = s.dfault ∧ t.dfinfo = s.dfinfo)) ∧
    (∀ cfg t, runTransaction (.reset cfg) s = .next t → t.efault = .none ∧ t.dfault = .none) ∧
    (∀ raster t, runTransaction (.encodeFrame raster) s = .next t → t.dstate = s.dstate ∧ t.dfault = s.dfault) ∧
    (∀ t, runTransaction .decStep s = .next t → t.estate = s.estate ∧ t.efault = s.efault)

/-- No transaction but Reset changes CFG; OUT only grows by appending; IN does not change while a stream is decoded
(70_reset_and_hazards.md R250, 10_state.md R26, 20_memory.md R60). -/
def Obligations.OnlyResetReconfigures : Prop :=
  ∀ (tr : Transaction) (s t : State), (∀ cfg, tr ≠ .reset cfg) → runTransaction tr s = .next t →
    t.cfg = s.cfg ∧ s.out <+: t.out ∧ s.eframes ≤ t.eframes ∧ (s.dstate = .run → t.inp = s.inp)

/-- A step is the host's oldest queued transaction, and DecStep when none is queued: the model's choice (log 3; transactions
00_scope.md R5). -/
def Obligations.StepTakesOldestTransaction : Prop :=
  (∀ (s : State) (t : Transaction) (ts : List Transaction), s.hostQueue = t :: ts →
    step s = runTransaction t { s with hostQueue := ts }) ∧
  (∀ (s : State), s.hostQueue = [] → step s = runTransaction .decStep s)

/-- No step stops with a fault: the block's faults are states, and no instruction writes a block DM does not have
(42_opcode_decoder.md R173, 20_memory.md R50). That a block's fault is a next state is the model's choice (log 8). -/
def Obligations.StepNeverFaults : Prop := ∀ (s : State) (e : Fault), step s ≠ .fault e

/-- A step is refused only where the spec gives a transaction no meaning (70_reset_and_hazards.md R241, R242; 42_opcode_decoder.md
R170). -/
def Obligations.RefusalsAreTheSpecs : Prop :=
  ∀ (s : State) (r : Refusal), step s = .refused r →
    (r = .beforeReset ∧ s.resetDone = false) ∨
    (r = .illegalConfig ∧ ∃ cfg ts, s.hostQueue = .reset cfg :: ts ∧ ¬ cfg.legal) ∨
    (r = .decoderBusy ∧ (∃ stream ts, s.hostQueue = .decLoad stream :: ts) ∧ (s.dstate = .run ∨ s.dstate = .fault))

/-- The invariant of StepKeepsInvariant holds after every Reset with a legal configuration, whose values are those of 10_state.md R34
(70_reset_and_hazards.md R240, R241), and in State.reset. The model's choices in it: State.reset is the state after a Reset with the
default configuration (log 4), DM is a strictly rising list of written blocks (log 2), and the draw's number and the host's queue are
the model's own fields (log 1, log 3). The counter bounds are the spec's own inference (10_state.md section 4, R30). -/
def Obligations.ResetMeetsInvariant : Prop :=
  (∀ (cfg : Cfg) (k : Nat) (q : List Transaction), cfg.legal → (State.afterReset cfg k q).Inv) ∧ State.reset.Inv

/-- Every step keeps the invariant. From the spec's rules: a Reset has completed (70_reset_and_hazards.md R242) with a legal CFG
(R241); |PREV| ≤ FB (41_opcode_encoder.md R144, R145); PREV_VALID exactly when a frame was encoded (10_state.md R25, R26); fault
fields that agree with the agents' states (R24, R28); DONE only at a clean end (42_opcode_decoder.md R183); DM's addresses are
0..FB−1 (R31); the events of the trace are the blocks in order (R29). The spec's own inferences: the bounds of cur, blk, DFRAMES and
EFRAMES (10_state.md section 4, R30; DFRAMES ≤ cur is the model's sharper form of its DFRAMES ≤ L) and "no gap, no overlap"
(30_encoding.md section 3, R82). The model's choice: DM is kept as a list of written blocks, strictly rising by address, the clause
`dm_wf` (log 2). -/
def Obligations.StepKeepsInvariant : Prop :=
  ∀ (s t : State), s.Inv → step s = .next t → t.Inv

/-! ### The two agents -/

/-- The encoder's transaction depends on nothing but the encoder's own state and the frame size (not on REPEAT_LAYOUT), and changes
nothing of the decoder's (00_scope.md R6, R9; 20_memory.md R50). -/
def Obligations.EncoderSeesOnlyItsOwnState : Prop :=
  (∀ (s s' : State) (raster : List Byte), SameEncoder s s' → SameEncoder (s.encodeFrame raster) (s'.encodeFrame raster)) ∧
  (∀ (s : State) (raster : List Byte), SameDecoder s (s.encodeFrame raster))

/-- The decoder's transactions depend on nothing but the decoder's own state, CFG and DM, and change nothing of the encoder's
(00_scope.md R6, 20_memory.md R50). -/
def Obligations.DecoderSeesOnlyItsOwnState : Prop :=
  ∀ (tr : Transaction) (s t : State), (tr = .decStep ∨ ∃ stream, tr = .decLoad stream) → runTransaction tr s = .next t →
    SameEncoder s t ∧ ∀ s', SameDecoder s s' → ∃ t', runTransaction tr s' = .next t' ∧ SameDecoder t t'

/-! ### The encoder -/

/-- Classification (40_delta_and_collapse.md R100, R101): fully literal without a previous raster, LengthMismatch on a different
length, otherwise Skip where the bytes are equal and the byte as a literal where they are not. -/
def Obligations.ClassifyComparesByteForByte : Prop :=
  ∀ (s : State) (cur : List Byte),
    (s.prevValid = false → classify s cur = .ok (cur.map .lit)) ∧
    (s.prevValid = true → s.prev.length ≠ cur.length → classify s cur =
      .error { frame := s.eframes, prevLen := s.prev.length, curLen := cur.length, blocks := none }) ∧
    (s.prevValid = true → s.prev.length = cur.length → ∃ es, classify s cur = .ok es ∧ es.length = cur.length ∧
      ∀ i, i < cur.length → es[i]? = some (if s.prev.getD i 0 = cur.getD i 0 then .skip else .lit (cur.getD i 0)))

/-- Pass A (40_delta_and_collapse.md R102 to R105): a group of m ≥ 2 Skips is merged and chunked at 256, a lone Skip becomes the
raster's literal, and a literal separates what is before it from what is after it. -/
def Obligations.PassAMergesSkipGroups : Prop :=
  (∀ (cur : List Byte), 2 ≤ cur.length → passA (List.replicate cur.length .skip) cur = chunked .skip 256 cur.length) ∧
  (∀ b : Byte, passA [.skip] [b] = [.lit b]) ∧
  passA [] [] = [] ∧
  (∀ (e₁ e₂ : List Elem) (c₁ c₂ : List Byte) (b x : Byte), e₁.length = c₁.length → e₂.length = c₂.length →
    passA (e₁ ++ .lit b :: e₂) (c₁ ++ x :: c₂) = passA e₁ c₁ ++ .lit b :: passA e₂ c₂)

/-- Pass B (40_delta_and_collapse.md R106 to R109): a group of m ≤ 2 identical literals stays, one of m ≥ 3 becomes Repeat runs
chunked at 64, groups of different bytes are separate, and a Skip run passes through and separates. -/
def Obligations.PassBMergesLiteralGroups : Prop :=
  (∀ (v : Byte) (m : Nat), m ≤ 2 → passB (List.replicate m (.lit v)) = List.replicate m (.lit v)) ∧
  (∀ (v : Byte) (m : Nat), 3 ≤ m → passB (List.replicate m (.lit v)) = chunked (.rep v) 64 m) ∧
  (∀ (a₁ a₂ : List Run) (u v : Byte), u ≠ v →
    passB (a₁ ++ .lit u :: .lit v :: a₂) = passB (a₁ ++ [.lit u]) ++ passB (.lit v :: a₂)) ∧
  (∀ (a₁ a₂ : List Run) (c : Nat), passB (a₁ ++ .skip c :: a₂) = passB a₁ ++ .skip c :: passB a₂)

/-- The run sequence of a classified raster counts the raster's blocks and expands to exactly the raster
(40_delta_and_collapse.md R110(a), (d), the spec's own inference). -/
def Obligations.RunsReproduceRaster : Prop :=
  ∀ (s : State) (cur : List Byte) (es : List Elem), classify s cur = .ok es →
    ((passB (passA es cur)).map Run.count).sum = cur.length ∧ expandRuns (passB (passA es cur)) s.prev = cur

/-- Every run of the sequence stays in its chunk limit, and without a previous raster there is no Skip run
(40_delta_and_collapse.md R110(b), (c), (e), the spec's own inference). -/
def Obligations.RunCountsInBounds : Prop :=
  ∀ (s : State) (cur : List Byte) (es : List Elem), classify s cur = .ok es →
    ∀ r ∈ passB (passA es cur), runInBounds r = true ∧ (s.prevValid = false → ∀ c, r ≠ .skip c)

/-- Pass B applied to its own output changes nothing (40_delta_and_collapse.md R110(f), the spec's own inference). -/
def Obligations.PassBIsIdempotent : Prop := ∀ a : List Run, passB (passB a) = passB a

/-- The walk at a Repeat run (41_opcode_encoder.md R132, R133, R134). -/
def Obligations.SelectAtRepeatRun : Prop :=
  ∀ (v : Byte) (n : Nat) (rest : List Run),
    (n ≤ 7 → ∀ s after, s ≤ 7 → rest = .skip s :: after →
      select (.rep v n :: rest) = .repeatSkip n s v :: select after) ∧
    (n ≤ 7 → startsWithShortSkip rest = false → select (.rep v n :: rest) = .repeatSkip n 0 v :: select rest) ∧
    (8 ≤ n → select (.rep v n :: rest) = .repeatByte n v :: select rest)

/-- The walk at a Skip run (41_opcode_encoder.md R135, R136, R137). -/
def Obligations.SelectAtSkipRun : Prop :=
  ∀ (s : Nat) (rest : List Run),
    (s ≤ 7 → ∀ (d : List Byte) after, 1 ≤ d.length → d.length ≤ 7 → startsWithLit after = false → rest = d.map .lit ++ after →
      select (.skip s :: rest) = .skipCopy s d :: select after) ∧
    (s ≤ 7 → startsWithLit rest = false → select (.skip s :: rest) = .skipCopy s [] :: select rest) ∧
    (s ≤ 7 → ∀ (d : List Byte) after, 8 ≤ d.length → rest = d.map .lit ++ after →
      select (.skip s :: rest) = .skipCopy s [] :: select rest) ∧
    (8 ≤ s → select (.skip s :: rest) = .longSkip s :: select rest)

/-- The walk at a Literal-run, at most 256 literals from the left (41_opcode_encoder.md R131, R138, R139, R140). -/
def Obligations.SelectAtLiteralRun : Prop :=
  ∀ (d : List Byte) (after : List Run),
    (1 ≤ d.length → d.length ≤ 7 → ∀ s rest, s ≤ 7 → after = .skip s :: rest →
      select (d.map .lit ++ after) = .copySkip d s :: select rest) ∧
    (1 ≤ d.length → d.length ≤ 7 → startsWithLit after = false → startsWithShortSkip after = false →
      select (d.map .lit ++ after) = .copySkip d 0 :: select after) ∧
    (8 ≤ d.length → d.length ≤ 256 → (d.length = 256 ∨ startsWithLit after = false) →
      select (d.map .lit ++ after) = .longCopy d :: select after)

/-- What the walk emits for runs inside the chunk limits is canonical, has an encoding, and belongs to SIX_BIT (30_encoding.md R84,
41_opcode_encoder.md R132 to R140); the ranges of R84 are the spec's own inference. -/
def Obligations.SelectEmitsCanonicalInstructions : Prop :=
  ∀ (rs : List Run), (∀ r ∈ rs, runInBounds r = true) →
    ∀ i ∈ select rs, canonical i = true ∧ i.wf = true ∧ i.inLayout .sixBit = true

/-- The blocks of the emitted instructions are the counts of the runs consumed (41_opcode_encoder.md R142, R130). -/
def Obligations.SelectKeepsTheBlockCount : Prop := ∀ (rs : List Run), advSum (select rs) = (rs.map Run.count).sum

/-- Padding (41_opcode_encoder.md R143): LongSkips of 256 and one of the remainder, which bring the block sum to FB exactly. -/
def Obligations.PaddingReachesFrameSize : Prop :=
  ∀ (fb be : Nat), be ≤ fb →
    pad fb be = List.replicate ((fb - be) / 256) (.longSkip 256) ++
      (if (fb - be) % 256 = 0 then [] else [.longSkip ((fb - be) % 256)]) ∧
    be + advSum (pad fb be) = fb ∧
    ∀ i ∈ pad fb be, i.wf = true

/-- EncodeFrame's faults (60_exceptions.md R211, R212, R216, R218): LengthMismatch when a previous raster of another length exists,
also when the raster is too long; BlockAccountingMismatch otherwise when the raster is longer than the frame; nothing but the fault
fields changes. -/
def Obligations.EncodeFrameFaults : Prop :=
  ∀ (s : State) (raster : List Byte), s.estate = .ready →
    (s.prevValid = true → s.prev.length ≠ raster.length → s.encodeFrame raster = { s with
      estate := .fault, efault := .lengthMismatch,
      efinfo := some { frame := s.eframes, prevLen := s.prev.length, curLen := raster.length, blocks := none } }) ∧
    ((s.prevValid = true → s.prev.length = raster.length) → raster.length > s.cfg.fb → s.encodeFrame raster = { s with
      estate := .fault, efault := .blockAccountingMismatch,
      efinfo := some { frame := s.eframes, prevLen := s.prev.length, curLen := raster.length, blocks := some raster.length } })

/-- EncodeFrame otherwise appends the selected instructions and the padding, whose blocks sum to FB, and commits
(41_opcode_encoder.md R142 to R146). -/
def Obligations.EncodeFrameCommits : Prop :=
  ∀ (s : State) (raster : List Byte), s.resetDone = true → s.estate = .ready →
    (s.prevValid = true → s.prev.length = raster.length) → raster.length ≤ s.cfg.fb →
    ∃ es is, classify s raster = .ok es ∧ is = frameInstrs es raster ++ pad s.cfg.fb raster.length ∧ advSum is = s.cfg.fb ∧
      runTransaction (.encodeFrame raster) s = .next { s with
        out := s.out ++ encodeAll is, prev := raster, prevValid := true, eframes := s.eframes + 1 }

/-- Without a previous raster no instruction of the raster part is Skip-class (41_opcode_encoder.md R147(c), the spec's own
inference; C4). -/
def Obligations.FirstFrameHasNoSkipClass : Prop :=
  ∀ (s : State) (raster : List Byte) (es : List Elem), s.prevValid = false → classify s raster = .ok es →
    ∀ i ∈ frameInstrs es raster, i.skipClass = false

/-- An identical frame of two or more blocks emits LongSkips of 256 and one skip of the remainder, then padding
(41_opcode_encoder.md R147(b), the spec's own inference; C5). -/
def Obligations.IdenticalFrameEmitsOnlySkips : Prop :=
  ∀ (s : State), s.estate = .ready → s.prevValid = true → 2 ≤ s.prev.length → s.prev.length ≤ s.cfg.fb →
    (s.encodeFrame s.prev).out = s.out ++ encodeAll
      (List.replicate (s.prev.length / 256) (.longSkip 256) ++
        (if s.prev.length % 256 = 0 then [] else if s.prev.length % 256 ≤ 7 then [.skipCopy (s.prev.length % 256) []]
          else [.longSkip (s.prev.length % 256)]) ++
        pad s.cfg.fb s.prev.length)

/-- The count boundary (41_opcode_encoder.md R147(d), the spec's own inference): 8 identical bytes take Repeat and 7 take
RepeatSkip; a Literal-run of 8 takes LongCopy and one of 7 takes CopySkip, or SkipCopy after a short skip. -/
def Obligations.CountBoundaryPicksTheForm : Prop :=
  (∀ (v : Byte) (rest : List Run), select (passB (List.replicate 8 (.lit v)) ++ rest) = .repeatByte 8 v :: select rest) ∧
  (∀ (v : Byte) (rest : List Run), ∃ s after,
    select (passB (List.replicate 7 (.lit v)) ++ rest) = .repeatSkip 7 s v :: select after) ∧
  (∀ (d : List Byte) (rest : List Run), d.length = 8 → startsWithLit rest = false →
    select (d.map .lit ++ rest) = .longCopy d :: select rest) ∧
  (∀ (d : List Byte) (rest : List Run), d.length = 7 → startsWithLit rest = false → ∃ s after,
    select (d.map .lit ++ rest) = .copySkip d s :: select after) ∧
  (∀ (k : Nat) (d : List Byte) (rest : List Run), k ≤ 7 → d.length = 7 → startsWithLit rest = false →
    select (.skip k :: d.map .lit ++ rest) = .skipCopy k d :: select rest)

/-! ### Encoder and decoder together -/

/-- Decoding the bytes of one encoded frame from a frame boundary reproduces the raster in DM, when DM held the previous raster; ends
at the next boundary; and touches no other block (41_opcode_encoder.md R147(e), the spec's own inference). The steps of an empty
queue are DecSteps: the model's choice (log 3). -/
def Obligations.FrameDecodesToRaster : Prop :=
  ∀ (e s : State) (raster bytes rest : List Byte),
    e.estate = .ready → (e.prevValid = true → e.prev.length = raster.length) → raster.length ≤ e.cfg.fb →
    (e.encodeFrame raster).out = e.out ++ bytes →
    s.resetDone = true → s.hostQueue = [] → s.dstate = .run → s.cfg.legal → s.cfg.layout = .sixBit → s.cfg.fb = e.cfg.fb →
    s.blk = 0 → (e.prevValid = true → dmBlocks s raster.length = e.prev) → s.inp.drop s.cur = bytes ++ rest →
    ∃ n t es, Host.Core.run Sys2Proof.core n s = .next t ∧ t.dstate = .run ∧ t.blk = 0 ∧ t.dframes = s.dframes + 1 ∧
      t.cur = s.cur + bytes.length ∧ t.trace = s.trace ++ es ++ [.frameEnd s.dframes] ∧
      dmBlocks t raster.length = raster ∧ ∀ a, raster.length ≤ a → t.dmByte a = s.dmByte a

/-- Round trip (42_opcode_decoder.md R184, the spec's own inference; the steps of an empty queue are DecSteps, the model's choice,
log 3): the frames of an animation, encoded after Reset and decoded from any DM, come back: the
decoder ends DONE without a fault after as many frames, at the end of frame j the blocks 0..RL−1 of DM are frame j, and no block from
RL on is ever written. -/
def Obligations.AnimationRoundTrip : Prop :=
  ∀ (cfg : Cfg) (frames : List (List Byte)) (RL k : Nat) (q : List Transaction) (e s d : State),
    cfg.legal → cfg.layout = .sixBit → RL ≤ cfg.fb → (∀ f ∈ frames, f.length = RL) →
    e = encodeFrames frames (State.afterReset cfg k q) →
    s.cfg = cfg → s.resetDone = true → s.hostQueue = [] → (s.dstate = .idle ∨ s.dstate = .done) →
    runTransaction (.decLoad e.out) s = .next d →
    e.estate = .ready ∧ e.eframes = frames.length ∧
    (∃ n t, n ≤ e.out.length + 1 ∧ Host.Core.run Sys2Proof.core n d = .next t ∧ t.dstate = .done ∧ t.dfault = .none ∧
      t.dframes = frames.length) ∧
    (∀ j, j < frames.length → ∃ n t, Host.Core.run Sys2Proof.core n d = .next t ∧ t.trace.getLast? = some (.frameEnd j) ∧
      t.dframes = j + 1 ∧ dmBlocks t RL = frames.getD j []) ∧
    (∀ n t, Host.Core.run Sys2Proof.core n d = .next t → ∀ a, RL ≤ a → t.dmByte a = s.dmByte a)
end

