-- ==== Sys2Proof/Laws/Decode.lean ====
section
/-! SUPPORT. Small laws of the decoder and the encoder: what each opcode byte form reads as (30_encoding.md R72 to R79), and lengths. -/

namespace Sys2Proof

/-- A packed pair of 3-bit counts is the concatenation of the two fields. -/
theorem packShort_toNat (tag : BitVec 2) (a b : BitVec 3) : packShort tag a.toNat b.toNat = tag ++ a ++ b := by
  simp [packShort]

theorem decodeOpcode_skipCopy (l : Layout) (s c : BitVec 3) (h : s ≠ 0 ∨ c ≠ 0) :
    decodeOpcode l (packShort 0b00 s.toNat c.toNat) = .skipCopy s.toNat c.toNat := by
  cases l <;> revert s c <;> decide

theorem decodeOpcode_copySkip (l : Layout) (c s : BitVec 3) (h : c ≠ 0 ∨ s ≠ 0) :
    decodeOpcode l (packShort 0b01 c.toNat s.toNat) = .copySkip c.toNat s.toNat := by
  cases l <;> revert s c <;> decide

theorem decodeOpcode_repeatSkip (r s : BitVec 3) :
    decodeOpcode .sixBit (packShort 0b11 r.toNat s.toNat) = .repeatSkip r.toNat s.toNat := by
  revert r s; decide

theorem decodeOpcode_repeat (r : BitVec 6) : decodeOpcode .sixBit (0b10#2 ++ r) = .repeatByte r.toNat := by
  revert r; decide

theorem decodeOpcode_repeat7 (r : BitVec 7) : decodeOpcode .sevenBit (0b1#1 ++ r) = .repeat7 r.toNat := by
  revert r; decide

theorem decodeOpcode_longSkip (l : Layout) : decodeOpcode l 0x00 = .longSkip := by cases l <;> decide

theorem decodeOpcode_longCopy (l : Layout) : decodeOpcode l 0x40 = .longCopy := by cases l <;> decide

/-- Every opcode byte under either layout is one of the seven forms, with the fields its kind carries (30_encoding.md R72 to R79). -/
theorem decodeOpcode_cases (l : Layout) (op : Byte) :
    (∃ s c : BitVec 3, (s ≠ 0 ∨ c ≠ 0) ∧ op = packShort 0b00 s.toNat c.toNat ∧ decodeOpcode l op = .skipCopy s.toNat c.toNat) ∨
    (op = 0x00 ∧ decodeOpcode l op = .longSkip) ∨
    (∃ c s : BitVec 3, (c ≠ 0 ∨ s ≠ 0) ∧ op = packShort 0b01 c.toNat s.toNat ∧ decodeOpcode l op = .copySkip c.toNat s.toNat) ∨
    (op = 0x40 ∧ decodeOpcode l op = .longCopy) ∨
    (∃ r : BitVec 6, l = .sixBit ∧ op = 0b10#2 ++ r ∧ decodeOpcode l op = .repeatByte r.toNat) ∨
    (∃ r s : BitVec 3, l = .sixBit ∧ op = packShort 0b11 r.toNat s.toNat ∧ decodeOpcode l op = .repeatSkip r.toNat s.toNat) ∨
    (∃ r : BitVec 7, l = .sevenBit ∧ op = 0b1#1 ++ r ∧ decodeOpcode l op = .repeat7 r.toNat) := by
  have bits : ∀ b : Byte,
      b = 0b1#1 ++ b.extractLsb' 0 7 ∨ b = packShort 0b00 (b.extractLsb' 3 3).toNat (b.extractLsb' 0 3).toNat ∨
      b = packShort 0b01 (b.extractLsb' 3 3).toNat (b.extractLsb' 0 3).toNat := by decide
  have high : ∀ b : Byte, b = 0b1#1 ++ b.extractLsb' 0 7 →
      b = 0b10#2 ++ b.extractLsb' 0 6 ∨ b = packShort 0b11 (b.extractLsb' 3 3).toNat (b.extractLsb' 0 3).toNat := by decide
  rcases bits op with h | h | h
  · cases l with
    | sixBit =>
      rcases high op h with h | h
      · exact .inr (.inr (.inr (.inr (.inl ⟨_, rfl, h, by conv_lhs => rw [h, decodeOpcode_repeat]⟩))))
      · exact .inr (.inr (.inr (.inr (.inr (.inl ⟨_, _, rfl, h, by conv_lhs => rw [h, decodeOpcode_repeatSkip]⟩)))))
    | sevenBit => exact .inr (.inr (.inr (.inr (.inr (.inr ⟨_, rfl, h, by conv_lhs => rw [h, decodeOpcode_repeat7]⟩)))))
  · by_cases hz : op.extractLsb' 3 3 ≠ 0 ∨ op.extractLsb' 0 3 ≠ 0
    · exact .inl ⟨_, _, hz, h, by conv_lhs => rw [h, decodeOpcode_skipCopy _ _ _ hz]⟩
    · have hz' : op.extractLsb' 3 3 = 0 ∧ op.extractLsb' 0 3 = 0 := by simpa using hz
      rw [hz'.1, hz'.2] at h
      exact .inr (.inl ⟨h, by rw [h]; exact decodeOpcode_longSkip l⟩)
  · by_cases hz : op.extractLsb' 3 3 ≠ 0 ∨ op.extractLsb' 0 3 ≠ 0
    · exact .inr (.inr (.inl ⟨_, _, hz, h, by conv_lhs => rw [h, decodeOpcode_copySkip _ _ _ hz]⟩))
    · have hz' : op.extractLsb' 3 3 = 0 ∧ op.extractLsb' 0 3 = 0 := by simpa using hz
      rw [hz'.1, hz'.2] at h
      exact .inr (.inr (.inr (.inl ⟨h, by rw [h]; exact decodeOpcode_longCopy l⟩)))

theorem takeData_ok {used c : Nat} {rest : List Byte} {mk : List Byte → Instr} (h : c ≤ rest.length) :
    takeData used c rest mk = .ok (mk (rest.take c), rest.drop c) := by
  simp [takeData, Nat.not_lt.mpr h]

theorem takeData_short {used c : Nat} {rest : List Byte} {mk : List Byte → Instr} (h : rest.length < c) :
    takeData used c rest mk = .error (.truncated (used + c)) := by
  simp [takeData, h]

/-- A count of 1 to 256 survives its byte (30_encoding.md R80). -/
theorem packCount_toNat {n : Nat} (h1 : 1 ≤ n) (h2 : n ≤ 256) : (packCount n).toNat + 1 = n := by
  simp [packCount]; omega

theorem encodeAll_nil : encodeAll [] = [] := rfl

theorem encodeAll_cons (i : Instr) (is : List Instr) : encodeAll (i :: is) = encode i ++ encodeAll is := by
  simp [encodeAll]

theorem encodeAll_append (is js : List Instr) : encodeAll (is ++ js) = encodeAll is ++ encodeAll js := by
  simp [encodeAll]

end Sys2Proof
end

