-- ==== Sys2Proof/Laws/Encoder.lean ====
section
/-! SUPPORT. The encoder's functions, each said once: chunking, the two passes at a literal or a separator, the literal prefix, and the
walk without its fuel (40_delta_and_collapse.md, 41_opcode_encoder.md). -/

namespace Sys2Proof.Machine

/-! ### Chunks -/

theorem chunks_sum {k : Nat} (m : Nat) : (chunks k m).sum = m := by
  have h := Nat.div_add_mod m k
  rw [Nat.mul_comm] at h
  by_cases hm : m % k = 0
  · simpa [chunks, hm] using h
  · simpa [chunks, hm] using h

theorem mem_chunks {k m c : Nat} (hk : 0 < k) (h : c ∈ chunks k m) : 1 ≤ c ∧ c ≤ k := by
  unfold chunks at h
  rcases List.mem_append.mp h with h | h
  · obtain ⟨-, rfl⟩ := List.mem_replicate.mp h; omega
  · have := Nat.mod_lt m hk
    split at h
    · simp at h
    · obtain rfl := List.mem_singleton.mp h; omega

theorem chunks_zero (k : Nat) : chunks k 0 = [] := by simp [chunks]

theorem chunked_eq (mk : Nat → Run) (k m : Nat) : chunked mk k m = (chunks k m).map mk := by
  unfold chunked chunks
  split <;> simp

/-! ### Pass A -/

theorem mergedSkip_zero (b : Byte) : mergedSkip 0 b = [] := by simp [mergedSkip, chunks_zero]

/-- A literal separates: what is before it is scanned on its own (40_delta_and_collapse.md R103). -/
theorem passAScan_lit (m : Nat) (b : Byte) (l₁ l₂ : List (Elem × Byte)) (v x : Byte) :
    passAScan m b (l₁ ++ (.lit v, x) :: l₂) = passAScan m b l₁ ++ .lit v :: passAScan 0 0 l₂ := by
  induction l₁ generalizing m b with
  | nil => simp [passAScan]
  | cons p l₁ ih =>
    obtain ⟨e, y⟩ := p
    cases e with
    | skip => simp [passAScan, ih]
    | lit w => simp [passAScan, ih]

/-- A scan of Skips only: the merged run of all of them. -/
theorem passAScan_skips (m : Nat) (b : Byte) (cs : List Byte) :
    passAScan m b (cs.map fun c => (.skip, c)) = mergedSkip (m + cs.length) (cs.getLastD b) := by
  induction cs generalizing m b with
  | nil => simp [passAScan]
  | cons c cs ih => simp only [List.map_cons, passAScan, ih, List.length_cons, List.getLastD_cons]; congr 1; omega

/-! ### Pass B -/

theorem mergedLit_zero (v : Byte) : mergedLit 0 v = [] := by simp [mergedLit]

/-- With nothing pending the pending byte does not matter. -/
theorem passBScan_zero (v w : Byte) (rs : List Run) : passBScan 0 v rs = passBScan 0 w rs := by
  have key : ∀ u, passBScan 0 u rs =
      match rs with
      | [] => []
      | .lit b :: rs' => passBScan 1 b rs'
      | .skip c :: rs' => .skip c :: passBScan 0 0 rs'
      | .rep x c :: rs' => .rep x c :: passBScan 0 0 rs' := by
    intro u
    induction rs generalizing u with
    | nil => simp [passBScan, mergedLit_zero]
    | cons r rs ih =>
      cases r with
      | lit b =>
        by_cases hb : b = u
        · subst hb; simp [passBScan]
        · simp [passBScan, hb, mergedLit_zero]
      | skip c => simp only [passBScan, mergedLit_zero, List.nil_append]; rw [ih u, ih 0]
      | rep x c => simp only [passBScan, mergedLit_zero, List.nil_append]; rw [ih u, ih 0]
  rw [key v, key w]

/-- A Skip run separates and passes through (40_delta_and_collapse.md R109). -/
theorem passBScan_skip (m : Nat) (v : Byte) (a₁ a₂ : List Run) (c : Nat) :
    passBScan m v (a₁ ++ .skip c :: a₂) = passBScan m v a₁ ++ .skip c :: passB a₂ := by
  induction a₁ generalizing m v with
  | nil => simp only [List.nil_append, passBScan, passB]; rw [passBScan_zero v 0]
  | cons r a₁ ih =>
    cases r with
    | lit b => by_cases hb : b = v <;> simp [passBScan, hb, ih]
    | skip e => simp [passBScan, ih]
    | rep x e => simp [passBScan, ih]

/-- Literals of different bytes are in different groups (40_delta_and_collapse.md R107). -/
theorem passBScan_change (m : Nat) (w u v : Byte) (a₁ a₂ : List Run) (h : u ≠ v) :
    passBScan m w (a₁ ++ .lit u :: .lit v :: a₂) = passBScan m w (a₁ ++ [.lit u]) ++ passB (.lit v :: a₂) := by
  induction a₁ generalizing m w with
  | nil =>
    have hv : passB (.lit v :: a₂) = passBScan 1 v a₂ := by
      rw [passB, passBScan_zero 0 v]; simp [passBScan]
    by_cases hu : u = w
    · subst hu; simp [passBScan, hv, h.symm]
    · simp [passBScan, hv, hu, h.symm]
  | cons r a₁ ih =>
    cases r with
    | lit b => by_cases hb : b = w <;> simp [passBScan, hb, ih]
    | skip e => simp [passBScan, ih]
    | rep x e => simp [passBScan, ih]

/-- A scan of literals of the pending byte only: the merged group of all of them. -/
theorem passBScan_replicate (m n : Nat) (v : Byte) : passBScan m v (List.replicate n (.lit v)) = mergedLit (m + n) v := by
  induction n generalizing m with
  | zero => simp [passBScan]
  | succ n ih => simp only [List.replicate_succ, passBScan, if_pos, ih]; congr 1; omega

/-! ### The walk -/

theorem litPrefix_length (rs : List Run) : (litPrefix rs).length ≤ rs.length := by
  induction rs with
  | nil => simp [litPrefix]
  | cons r rs ih => cases r <;> simp [litPrefix, ih]

theorem litPrefix_map (d : List Byte) (rs : List Run) : litPrefix (d.map .lit ++ rs) = d ++ litPrefix rs := by
  induction d with
  | nil => rfl
  | cons b d ih => simp [litPrefix, ih]

theorem litPrefix_none {rs : List Run} (h : startsWithLit rs = false) : litPrefix rs = [] := by
  cases rs with
  | nil => rfl
  | cons r rs => cases r <;> simp_all [litPrefix, startsWithLit]

/-- A sequence is its literal prefix and a rest that does not start with a literal. -/
theorem litPrefix_spec (rs : List Run) : ∃ after, rs = (litPrefix rs).map .lit ++ after ∧ startsWithLit after = false := by
  induction rs with
  | nil => exact ⟨[], rfl, rfl⟩
  | cons r rs ih =>
    cases r with
    | lit b => obtain ⟨after, h₁, h₂⟩ := ih; exact ⟨after, by simp [litPrefix, ← h₁], h₂⟩
    | skip c => exact ⟨.skip c :: rs, rfl, rfl⟩
    | rep v c => exact ⟨.rep v c :: rs, rfl, rfl⟩

theorem literalRun_short (d : List Byte) {rs : List Run} (h : d.length ≤ 256) (hs : startsWithLit rs = false) :
    literalRun (d.map .lit ++ rs) = d := by
  simp [literalRun, litPrefix_map, litPrefix_none hs, List.take_of_length_le h]

theorem literalRun_full (d : List Byte) (rs : List Run) (h : d.length = 256) : literalRun (d.map .lit ++ rs) = d := by
  simp [literalRun, litPrefix_map, ← h]

theorem literalRun_length_le (rs : List Run) : (literalRun rs).length ≤ 256 := by
  simp only [literalRun, List.length_take, Config.longMax]; omega

theorem shortSkip_none {rs : List Run} (h : startsWithShortSkip rs = false) : shortSkip rs = none := by
  cases rs with
  | nil => rfl
  | cons r rs => cases r <;> simp_all [shortSkip, startsWithShortSkip]

theorem shortSkip_some {rs after : List Run} {s : Nat} (h : shortSkip rs = some (s, after)) : s ≤ 7 ∧ rs = .skip s :: after := by
  cases rs with
  | nil => simp [shortSkip] at h
  | cons r rs =>
    cases r with
    | skip c =>
      simp only [shortSkip] at h
      split at h
      · simp only [Option.some.injEq, Prod.mk.injEq] at h; obtain ⟨rfl, rfl⟩ := h; exact ⟨by assumption, rfl⟩
      · simp at h
    | rep v c => simp [shortSkip] at h
    | lit b => simp [shortSkip] at h

/-- Each position of the walk consumes its run, and the runs left are a suffix of the rest. -/
theorem selectOne_length (r : Run) (rest : List Run) : (selectOne r rest).2.length ≤ rest.length := by
  cases r with
  | rep v n =>
    simp only [selectOne, selectRep]
    split
    · split
      · rename_i s after h; obtain ⟨-, rfl⟩ := shortSkip_some h; simp
      · simp
    · simp
  | skip s =>
    simp only [selectOne, selectSkip]
    split
    · split <;> simp
    · simp
  | lit b =>
    have hpos : 1 ≤ (literalRun (.lit b :: rest)).length := by simp [literalRun, litPrefix]
    simp only [selectOne, selectLit]
    split
    · split
      · rename_i s after h
        obtain ⟨-, h⟩ := shortSkip_some h
        have := congrArg List.length h
        simp at this ⊢; omega
      · simp; omega
    · simp; omega

theorem selectWalk_fuel (k : Nat) (rs : List Run) (h : rs.length ≤ k) : selectWalk k rs = selectWalk rs.length rs := by
  induction k using Nat.strong_induction_on generalizing rs with
  | _ k ih =>
    cases rs with
    | nil => cases k <;> simp [selectWalk]
    | cons r rest =>
      cases k with
      | zero => simp at h
      | succ k =>
        have hl := selectOne_length r rest
        simp only [List.length_cons] at h
        simp only [selectWalk, List.length_cons]
        rw [ih k (by omega) _ (by omega), ih rest.length (by omega) _ hl]

/-- The walk, one position at a time (41_opcode_encoder.md R130). -/
theorem select_cons (r : Run) (rest : List Run) :
    select (r :: rest) = (selectOne r rest).1 :: select (selectOne r rest).2 := by
  simp only [select, selectWalk, List.length_cons]
  rw [selectWalk_fuel _ _ (selectOne_length r rest)]

theorem select_nil : select [] = [] := rfl

/-! ### Block sums -/

theorem advSum_nil : advSum [] = 0 := rfl

theorem advSum_cons (i : Instr) (is : List Instr) : advSum (i :: is) = i.adv + advSum is := by simp [advSum]

theorem advSum_append (is js : List Instr) : advSum (is ++ js) = advSum is + advSum js := by simp [advSum]

theorem advSum_longSkips (ns : List Nat) : advSum (ns.map .longSkip) = ns.sum := by
  induction ns with
  | nil => rfl
  | cons n ns ih => simp [advSum_cons, ih, Instr.adv, Instr.put, Instr.skip, Instr.skipBefore, Instr.skipAfter]

end Sys2Proof.Machine
end

