-- ==== Sys2Proof/Laws/Memory.lean ====
section
/-! SUPPORT. DM's list: a read after a write, and that a write keeps the canonical form (10_state.md R31, log 2). -/

namespace Sys2Proof.Machine

theorem lookup_write_same (m : Memory) (a : Nat) (v : Byte) : Memory.lookup (Memory.write m a v) a = some v := by
  induction m with
  | nil => simp [Memory.write, Memory.lookup]
  | cons c m ih =>
    obtain ⟨b, w⟩ := c
    simp only [Memory.write]
    split
    · simp [Memory.lookup]
    · split
      · simp [Memory.lookup]
      · simp [Memory.lookup, *]

theorem lookup_write_other (m : Memory) {a b : Nat} (v : Byte) (h : b ≠ a) :
    Memory.lookup (Memory.write m a v) b = Memory.lookup m b := by
  induction m with
  | nil => simp [Memory.write, Memory.lookup, h]
  | cons c m ih =>
    obtain ⟨e, w⟩ := c
    simp only [Memory.write]
    split
    · simp [Memory.lookup, h]
    · split
      · subst_vars; simp [Memory.lookup, h]
      · simp [Memory.lookup, ih]

/-- A write adds at most the written address to the addresses listed. -/
theorem mem_write {m : Memory} {a : Nat} {v : Byte} {c : Host.Cell} (h : c ∈ Memory.write m a v) : c = (a, v) ∨ c ∈ m := by
  induction m with
  | nil => simpa [Memory.write] using h
  | cons d m ih =>
    obtain ⟨e, w⟩ := d
    simp only [Memory.write] at h
    split at h
    · simpa using h
    · split at h
      · simp only [List.mem_cons] at h ⊢; tauto
      · simp only [List.mem_cons] at h ⊢
        rcases h with h | h
        · tauto
        · have := ih h; tauto

theorem write_wf {m : Memory} (a : Nat) (v : Byte) (h : Memory.wf m) : Memory.wf (Memory.write m a v) := by
  induction m with
  | nil => simp [Memory.write, Memory.wf]
  | cons d m ih =>
    obtain ⟨e, w⟩ := d
    simp only [Memory.wf, List.pairwise_cons] at h
    simp only [Memory.write]
    split
    · simp only [Memory.wf, List.pairwise_cons, List.mem_cons, forall_eq_or_imp]
      exact ⟨⟨by omega, fun c hc => by have := h.1 c hc; simp at this ⊢; omega⟩, h⟩
    · split
      · subst_vars; simp only [Memory.wf, List.pairwise_cons]; exact h
      · simp only [Memory.wf, List.pairwise_cons]
        refine ⟨fun c hc => ?_, ih h.2⟩
        rcases mem_write hc with rfl | hc
        · simp; omega
        · exact h.1 c hc

/-- The bytes `d` written to consecutive blocks from `a` on. -/
def writeAll (m : Memory) (a : Nat) (d : List Byte) : Memory :=
  match d with
  | [] => m
  | v :: d' => writeAll (Memory.write m a v) (a + 1) d'

theorem writeAll_wf {m : Memory} (a : Nat) (d : List Byte) (h : Memory.wf m) : Memory.wf (writeAll m a d) := by
  induction d generalizing m a with
  | nil => exact h
  | cons v d ih => exact ih _ (write_wf a v h)

theorem mem_writeAll {m : Memory} {a : Nat} {d : List Byte} {c : Host.Cell} (h : c ∈ writeAll m a d) :
    c ∈ m ∨ (a ≤ c.1 ∧ c.1 < a + d.length) := by
  induction d generalizing m a with
  | nil => exact .inl h
  | cons v d ih =>
    simp only [List.length_cons]
    rcases ih h with h | h
    · rcases mem_write h with rfl | h
      · right; simp
      · exact .inl h
    · right; omega

/-- DM after reset is in canonical form: nothing is listed. -/
theorem reset_dm_wf : Memory.wf State.reset.dm := List.Pairwise.nil

/-- Reading a block after a run of writes: the written byte inside the run, the old one outside. -/
theorem lookup_writeAll (m : Memory) (a b : Nat) (d : List Byte) :
    Memory.lookup (writeAll m a d) b =
      if a ≤ b ∧ b < a + d.length then some (d.getD (b - a) 0) else Memory.lookup m b := by
  induction d generalizing m a with
  | nil => simp [writeAll]
  | cons v d ih =>
    rw [writeAll, ih]
    by_cases hb : b = a
    · subst hb; simp [lookup_write_same]
    · rw [lookup_write_other _ _ hb]
      by_cases h1 : a + 1 ≤ b ∧ b < a + 1 + d.length
      · have h2 : a ≤ b ∧ b < a + (v :: d).length := by simp; omega
        obtain ⟨k, rfl⟩ : ∃ k, b = a + 1 + k := ⟨b - (a + 1), by omega⟩
        rw [if_pos h1, if_pos h2]
        simp [show a + 1 + k - a = k + 1 by omega]
      · have h2 : ¬ (a ≤ b ∧ b < a + (v :: d).length) := by simp; omega
        rw [if_neg h1, if_neg h2]

end Sys2Proof.Machine
end

