-- ==== Sys2Proof/Laws/State.lean ====
section
/-! SUPPORT. What each named update of the state leaves in each field: one lemma per field per update, true by rfl. -/

namespace Sys2Proof.Machine

variable (s : State)

/-! ### raiseEnc -/

@[simp] theorem raiseEnc_resetDone (k : EFault) (i : EInfo) : (s.raiseEnc k i).resetDone = s.resetDone := rfl
@[simp] theorem raiseEnc_cfg (k : EFault) (i : EInfo) : (s.raiseEnc k i).cfg = s.cfg := rfl
@[simp] theorem raiseEnc_estate (k : EFault) (i : EInfo) : (s.raiseEnc k i).estate = .fault := rfl
@[simp] theorem raiseEnc_efault (k : EFault) (i : EInfo) : (s.raiseEnc k i).efault = k := rfl
@[simp] theorem raiseEnc_efinfo (k : EFault) (i : EInfo) : (s.raiseEnc k i).efinfo = some i := rfl
@[simp] theorem raiseEnc_prevValid (k : EFault) (i : EInfo) : (s.raiseEnc k i).prevValid = s.prevValid := rfl
@[simp] theorem raiseEnc_prev (k : EFault) (i : EInfo) : (s.raiseEnc k i).prev = s.prev := rfl
@[simp] theorem raiseEnc_out (k : EFault) (i : EInfo) : (s.raiseEnc k i).out = s.out := rfl
@[simp] theorem raiseEnc_eframes (k : EFault) (i : EInfo) : (s.raiseEnc k i).eframes = s.eframes := rfl
@[simp] theorem raiseEnc_dstate (k : EFault) (i : EInfo) : (s.raiseEnc k i).dstate = s.dstate := rfl
@[simp] theorem raiseEnc_dfault (k : EFault) (i : EInfo) : (s.raiseEnc k i).dfault = s.dfault := rfl
@[simp] theorem raiseEnc_dfinfo (k : EFault) (i : EInfo) : (s.raiseEnc k i).dfinfo = s.dfinfo := rfl
@[simp] theorem raiseEnc_inp (k : EFault) (i : EInfo) : (s.raiseEnc k i).inp = s.inp := rfl
@[simp] theorem raiseEnc_cur (k : EFault) (i : EInfo) : (s.raiseEnc k i).cur = s.cur := rfl
@[simp] theorem raiseEnc_blk (k : EFault) (i : EInfo) : (s.raiseEnc k i).blk = s.blk := rfl
@[simp] theorem raiseEnc_dframes (k : EFault) (i : EInfo) : (s.raiseEnc k i).dframes = s.dframes := rfl
@[simp] theorem raiseEnc_trace (k : EFault) (i : EInfo) : (s.raiseEnc k i).trace = s.trace := rfl
@[simp] theorem raiseEnc_dm (k : EFault) (i : EInfo) : (s.raiseEnc k i).dm = s.dm := rfl
@[simp] theorem raiseEnc_resetCount (k : EFault) (i : EInfo) : (s.raiseEnc k i).resetCount = s.resetCount := rfl
@[simp] theorem raiseEnc_hostQueue (k : EFault) (i : EInfo) : (s.raiseEnc k i).hostQueue = s.hostQueue := rfl

/-! ### raiseDec -/

@[simp] theorem raiseDec_resetDone (k : DFault) (i : DInfo) : (s.raiseDec k i).resetDone = s.resetDone := rfl
@[simp] theorem raiseDec_cfg (k : DFault) (i : DInfo) : (s.raiseDec k i).cfg = s.cfg := rfl
@[simp] theorem raiseDec_estate (k : DFault) (i : DInfo) : (s.raiseDec k i).estate = s.estate := rfl
@[simp] theorem raiseDec_efault (k : DFault) (i : DInfo) : (s.raiseDec k i).efault = s.efault := rfl
@[simp] theorem raiseDec_efinfo (k : DFault) (i : DInfo) : (s.raiseDec k i).efinfo = s.efinfo := rfl
@[simp] theorem raiseDec_prevValid (k : DFault) (i : DInfo) : (s.raiseDec k i).prevValid = s.prevValid := rfl
@[simp] theorem raiseDec_prev (k : DFault) (i : DInfo) : (s.raiseDec k i).prev = s.prev := rfl
@[simp] theorem raiseDec_out (k : DFault) (i : DInfo) : (s.raiseDec k i).out = s.out := rfl
@[simp] theorem raiseDec_eframes (k : DFault) (i : DInfo) : (s.raiseDec k i).eframes = s.eframes := rfl
@[simp] theorem raiseDec_dstate (k : DFault) (i : DInfo) : (s.raiseDec k i).dstate = .fault := rfl
@[simp] theorem raiseDec_dfault (k : DFault) (i : DInfo) : (s.raiseDec k i).dfault = k := rfl
@[simp] theorem raiseDec_dfinfo (k : DFault) (i : DInfo) : (s.raiseDec k i).dfinfo = some i := rfl
@[simp] theorem raiseDec_inp (k : DFault) (i : DInfo) : (s.raiseDec k i).inp = s.inp := rfl
@[simp] theorem raiseDec_cur (k : DFault) (i : DInfo) : (s.raiseDec k i).cur = s.cur := rfl
@[simp] theorem raiseDec_blk (k : DFault) (i : DInfo) : (s.raiseDec k i).blk = s.blk := rfl
@[simp] theorem raiseDec_dframes (k : DFault) (i : DInfo) : (s.raiseDec k i).dframes = s.dframes := rfl
@[simp] theorem raiseDec_trace (k : DFault) (i : DInfo) : (s.raiseDec k i).trace = s.trace := rfl
@[simp] theorem raiseDec_dm (k : DFault) (i : DInfo) : (s.raiseDec k i).dm = s.dm := rfl
@[simp] theorem raiseDec_resetCount (k : DFault) (i : DInfo) : (s.raiseDec k i).resetCount = s.resetCount := rfl
@[simp] theorem raiseDec_hostQueue (k : DFault) (i : DInfo) : (s.raiseDec k i).hostQueue = s.hostQueue := rfl

/-! ### emit -/

@[simp] theorem emit_resetDone (e : Event) : (s.emit e).resetDone = s.resetDone := rfl
@[simp] theorem emit_cfg (e : Event) : (s.emit e).cfg = s.cfg := rfl
@[simp] theorem emit_estate (e : Event) : (s.emit e).estate = s.estate := rfl
@[simp] theorem emit_efault (e : Event) : (s.emit e).efault = s.efault := rfl
@[simp] theorem emit_efinfo (e : Event) : (s.emit e).efinfo = s.efinfo := rfl
@[simp] theorem emit_prevValid (e : Event) : (s.emit e).prevValid = s.prevValid := rfl
@[simp] theorem emit_prev (e : Event) : (s.emit e).prev = s.prev := rfl
@[simp] theorem emit_out (e : Event) : (s.emit e).out = s.out := rfl
@[simp] theorem emit_eframes (e : Event) : (s.emit e).eframes = s.eframes := rfl
@[simp] theorem emit_dstate (e : Event) : (s.emit e).dstate = s.dstate := rfl
@[simp] theorem emit_dfault (e : Event) : (s.emit e).dfault = s.dfault := rfl
@[simp] theorem emit_dfinfo (e : Event) : (s.emit e).dfinfo = s.dfinfo := rfl
@[simp] theorem emit_inp (e : Event) : (s.emit e).inp = s.inp := rfl
@[simp] theorem emit_cur (e : Event) : (s.emit e).cur = s.cur := rfl
@[simp] theorem emit_blk (e : Event) : (s.emit e).blk = s.blk := rfl
@[simp] theorem emit_dframes (e : Event) : (s.emit e).dframes = s.dframes := rfl
@[simp] theorem emit_trace (e : Event) : (s.emit e).trace = s.trace ++ [e] := rfl
@[simp] theorem emit_dm (e : Event) : (s.emit e).dm = s.dm := rfl
@[simp] theorem emit_resetCount (e : Event) : (s.emit e).resetCount = s.resetCount := rfl
@[simp] theorem emit_hostQueue (e : Event) : (s.emit e).hostQueue = s.hostQueue := rfl

/-! ### putBlock -/

@[simp] theorem putBlock_resetDone (a : Nat) (v : Byte) : (s.putBlock a v).resetDone = s.resetDone := rfl
@[simp] theorem putBlock_cfg (a : Nat) (v : Byte) : (s.putBlock a v).cfg = s.cfg := rfl
@[simp] theorem putBlock_estate (a : Nat) (v : Byte) : (s.putBlock a v).estate = s.estate := rfl
@[simp] theorem putBlock_efault (a : Nat) (v : Byte) : (s.putBlock a v).efault = s.efault := rfl
@[simp] theorem putBlock_efinfo (a : Nat) (v : Byte) : (s.putBlock a v).efinfo = s.efinfo := rfl
@[simp] theorem putBlock_prevValid (a : Nat) (v : Byte) : (s.putBlock a v).prevValid = s.prevValid := rfl
@[simp] theorem putBlock_prev (a : Nat) (v : Byte) : (s.putBlock a v).prev = s.prev := rfl
@[simp] theorem putBlock_out (a : Nat) (v : Byte) : (s.putBlock a v).out = s.out := rfl
@[simp] theorem putBlock_eframes (a : Nat) (v : Byte) : (s.putBlock a v).eframes = s.eframes := rfl
@[simp] theorem putBlock_dstate (a : Nat) (v : Byte) : (s.putBlock a v).dstate = s.dstate := rfl
@[simp] theorem putBlock_dfault (a : Nat) (v : Byte) : (s.putBlock a v).dfault = s.dfault := rfl
@[simp] theorem putBlock_dfinfo (a : Nat) (v : Byte) : (s.putBlock a v).dfinfo = s.dfinfo := rfl
@[simp] theorem putBlock_inp (a : Nat) (v : Byte) : (s.putBlock a v).inp = s.inp := rfl
@[simp] theorem putBlock_cur (a : Nat) (v : Byte) : (s.putBlock a v).cur = s.cur := rfl
@[simp] theorem putBlock_blk (a : Nat) (v : Byte) : (s.putBlock a v).blk = s.blk := rfl
@[simp] theorem putBlock_dframes (a : Nat) (v : Byte) : (s.putBlock a v).dframes = s.dframes := rfl
@[simp] theorem putBlock_trace (a : Nat) (v : Byte) : (s.putBlock a v).trace = s.trace ++ [.put a v] := rfl
@[simp] theorem putBlock_dm (a : Nat) (v : Byte) : (s.putBlock a v).dm = Memory.write s.dm a v := rfl
@[simp] theorem putBlock_resetCount (a : Nat) (v : Byte) : (s.putBlock a v).resetCount = s.resetCount := rfl
@[simp] theorem putBlock_hostQueue (a : Nat) (v : Byte) : (s.putBlock a v).hostQueue = s.hostQueue := rfl

/-! ### advance -/

@[simp] theorem advance_resetDone (n len : Nat) : (s.advance n len).resetDone = s.resetDone := rfl
@[simp] theorem advance_cfg (n len : Nat) : (s.advance n len).cfg = s.cfg := rfl
@[simp] theorem advance_estate (n len : Nat) : (s.advance n len).estate = s.estate := rfl
@[simp] theorem advance_efault (n len : Nat) : (s.advance n len).efault = s.efault := rfl
@[simp] theorem advance_efinfo (n len : Nat) : (s.advance n len).efinfo = s.efinfo := rfl
@[simp] theorem advance_prevValid (n len : Nat) : (s.advance n len).prevValid = s.prevValid := rfl
@[simp] theorem advance_prev (n len : Nat) : (s.advance n len).prev = s.prev := rfl
@[simp] theorem advance_out (n len : Nat) : (s.advance n len).out = s.out := rfl
@[simp] theorem advance_eframes (n len : Nat) : (s.advance n len).eframes = s.eframes := rfl
@[simp] theorem advance_dstate (n len : Nat) : (s.advance n len).dstate = s.dstate := rfl
@[simp] theorem advance_dfault (n len : Nat) : (s.advance n len).dfault = s.dfault := rfl
@[simp] theorem advance_dfinfo (n len : Nat) : (s.advance n len).dfinfo = s.dfinfo := rfl
@[simp] theorem advance_inp (n len : Nat) : (s.advance n len).inp = s.inp := rfl
@[simp] theorem advance_cur (n len : Nat) : (s.advance n len).cur = s.cur + len := rfl
@[simp] theorem advance_blk (n len : Nat) : (s.advance n len).blk = s.blk + n := rfl
@[simp] theorem advance_dframes (n len : Nat) : (s.advance n len).dframes = s.dframes := rfl
@[simp] theorem advance_trace (n len : Nat) : (s.advance n len).trace = s.trace := rfl
@[simp] theorem advance_dm (n len : Nat) : (s.advance n len).dm = s.dm := rfl
@[simp] theorem advance_resetCount (n len : Nat) : (s.advance n len).resetCount = s.resetCount := rfl
@[simp] theorem advance_hostQueue (n len : Nat) : (s.advance n len).hostQueue = s.hostQueue := rfl

/-! ### commit -/

@[simp] theorem commit_resetDone (bs r : List Byte) : (s.commit bs r).resetDone = s.resetDone := rfl
@[simp] theorem commit_cfg (bs r : List Byte) : (s.commit bs r).cfg = s.cfg := rfl
@[simp] theorem commit_estate (bs r : List Byte) : (s.commit bs r).estate = s.estate := rfl
@[simp] theorem commit_efault (bs r : List Byte) : (s.commit bs r).efault = s.efault := rfl
@[simp] theorem commit_efinfo (bs r : List Byte) : (s.commit bs r).efinfo = s.efinfo := rfl
@[simp] theorem commit_prevValid (bs r : List Byte) : (s.commit bs r).prevValid = true := rfl
@[simp] theorem commit_prev (bs r : List Byte) : (s.commit bs r).prev = r := rfl
@[simp] theorem commit_out (bs r : List Byte) : (s.commit bs r).out = s.out ++ bs := rfl
@[simp] theorem commit_eframes (bs r : List Byte) : (s.commit bs r).eframes = s.eframes + 1 := rfl
@[simp] theorem commit_dstate (bs r : List Byte) : (s.commit bs r).dstate = s.dstate := rfl
@[simp] theorem commit_dfault (bs r : List Byte) : (s.commit bs r).dfault = s.dfault := rfl
@[simp] theorem commit_dfinfo (bs r : List Byte) : (s.commit bs r).dfinfo = s.dfinfo := rfl
@[simp] theorem commit_inp (bs r : List Byte) : (s.commit bs r).inp = s.inp := rfl
@[simp] theorem commit_cur (bs r : List Byte) : (s.commit bs r).cur = s.cur := rfl
@[simp] theorem commit_blk (bs r : List Byte) : (s.commit bs r).blk = s.blk := rfl
@[simp] theorem commit_dframes (bs r : List Byte) : (s.commit bs r).dframes = s.dframes := rfl
@[simp] theorem commit_trace (bs r : List Byte) : (s.commit bs r).trace = s.trace := rfl
@[simp] theorem commit_dm (bs r : List Byte) : (s.commit bs r).dm = s.dm := rfl
@[simp] theorem commit_resetCount (bs r : List Byte) : (s.commit bs r).resetCount = s.resetCount := rfl
@[simp] theorem commit_hostQueue (bs r : List Byte) : (s.commit bs r).hostQueue = s.hostQueue := rfl

/-! ### load -/

@[simp] theorem load_resetDone (bs : List Byte) : (s.load bs).resetDone = s.resetDone := rfl
@[simp] theorem load_cfg (bs : List Byte) : (s.load bs).cfg = s.cfg := rfl
@[simp] theorem load_estate (bs : List Byte) : (s.load bs).estate = s.estate := rfl
@[simp] theorem load_efault (bs : List Byte) : (s.load bs).efault = s.efault := rfl
@[simp] theorem load_efinfo (bs : List Byte) : (s.load bs).efinfo = s.efinfo := rfl
@[simp] theorem load_prevValid (bs : List Byte) : (s.load bs).prevValid = s.prevValid := rfl
@[simp] theorem load_prev (bs : List Byte) : (s.load bs).prev = s.prev := rfl
@[simp] theorem load_out (bs : List Byte) : (s.load bs).out = s.out := rfl
@[simp] theorem load_eframes (bs : List Byte) : (s.load bs).eframes = s.eframes := rfl
@[simp] theorem load_dstate (bs : List Byte) : (s.load bs).dstate = .run := rfl
@[simp] theorem load_dfault (bs : List Byte) : (s.load bs).dfault = .none := rfl
@[simp] theorem load_dfinfo (bs : List Byte) : (s.load bs).dfinfo = none := rfl
@[simp] theorem load_inp (bs : List Byte) : (s.load bs).inp = bs := rfl
@[simp] theorem load_cur (bs : List Byte) : (s.load bs).cur = 0 := rfl
@[simp] theorem load_blk (bs : List Byte) : (s.load bs).blk = 0 := rfl
@[simp] theorem load_dframes (bs : List Byte) : (s.load bs).dframes = 0 := rfl
@[simp] theorem load_trace (bs : List Byte) : (s.load bs).trace = [] := rfl
@[simp] theorem load_dm (bs : List Byte) : (s.load bs).dm = s.dm := rfl
@[simp] theorem load_resetCount (bs : List Byte) : (s.load bs).resetCount = s.resetCount := rfl
@[simp] theorem load_hostQueue (bs : List Byte) : (s.load bs).hostQueue = s.hostQueue := rfl

/-! ### afterReset -/

@[simp] theorem afterReset_resetDone (c : Cfg) (k : Nat) (q : List Transaction) : (State.afterReset c k q).resetDone = true := rfl
@[simp] theorem afterReset_cfg (c : Cfg) (k : Nat) (q : List Transaction) : (State.afterReset c k q).cfg = c := rfl
@[simp] theorem afterReset_estate (c : Cfg) (k : Nat) (q : List Transaction) : (State.afterReset c k q).estate = .ready := rfl
@[simp] theorem afterReset_efault (c : Cfg) (k : Nat) (q : List Transaction) : (State.afterReset c k q).efault = .none := rfl
@[simp] theorem afterReset_efinfo (c : Cfg) (k : Nat) (q : List Transaction) : (State.afterReset c k q).efinfo = none := rfl
@[simp] theorem afterReset_prevValid (c : Cfg) (k : Nat) (q : List Transaction) : (State.afterReset c k q).prevValid = false := rfl
@[simp] theorem afterReset_prev (c : Cfg) (k : Nat) (q : List Transaction) : (State.afterReset c k q).prev = [] := rfl
@[simp] theorem afterReset_out (c : Cfg) (k : Nat) (q : List Transaction) : (State.afterReset c k q).out = [] := rfl
@[simp] theorem afterReset_eframes (c : Cfg) (k : Nat) (q : List Transaction) : (State.afterReset c k q).eframes = 0 := rfl
@[simp] theorem afterReset_dstate (c : Cfg) (k : Nat) (q : List Transaction) : (State.afterReset c k q).dstate = .idle := rfl
@[simp] theorem afterReset_dfault (c : Cfg) (k : Nat) (q : List Transaction) : (State.afterReset c k q).dfault = .none := rfl
@[simp] theorem afterReset_dfinfo (c : Cfg) (k : Nat) (q : List Transaction) : (State.afterReset c k q).dfinfo = none := rfl
@[simp] theorem afterReset_inp (c : Cfg) (k : Nat) (q : List Transaction) : (State.afterReset c k q).inp = [] := rfl
@[simp] theorem afterReset_cur (c : Cfg) (k : Nat) (q : List Transaction) : (State.afterReset c k q).cur = 0 := rfl
@[simp] theorem afterReset_blk (c : Cfg) (k : Nat) (q : List Transaction) : (State.afterReset c k q).blk = 0 := rfl
@[simp] theorem afterReset_dframes (c : Cfg) (k : Nat) (q : List Transaction) : (State.afterReset c k q).dframes = 0 := rfl
@[simp] theorem afterReset_trace (c : Cfg) (k : Nat) (q : List Transaction) : (State.afterReset c k q).trace = [] := rfl
@[simp] theorem afterReset_dm (c : Cfg) (k : Nat) (q : List Transaction) : (State.afterReset c k q).dm = [] := rfl
@[simp] theorem afterReset_resetCount (c : Cfg) (k : Nat) (q : List Transaction) : (State.afterReset c k q).resetCount = k := rfl
@[simp] theorem afterReset_hostQueue (c : Cfg) (k : Nat) (q : List Transaction) : (State.afterReset c k q).hostQueue = q := rfl

/-! ### The two decoder faults, spelled out -/

theorem raiseUnderflow_eq (k : Nat) : s.raiseUnderflow k = underflowState s k := rfl

theorem raiseOverrun_eq (n : Nat) : s.raiseOverrun n = overrunState s n := rfl

end Sys2Proof.Machine
end

