-- ==== Sys2Proof/Laws/Ops.lean ====
section
/-! SUPPORT. Each shared operation of Machine/Ops.lean, said once: what it answers and when. -/

namespace Sys2Proof.Machine

variable (s : State)

theorem need_fails {k : Nat} (r : Result) (h : s.cur + k > s.inp.length) : need k s r = .next (underflowState s k) := by
  simp [need, h, raiseUnderflow_eq]

theorem need_holds {k : Nat} (r : Result) (h : s.cur + k ≤ s.inp.length) : need k s r = r := by
  simp [need, h]

theorem fit_fails {n : Nat} (r : Result) (h : s.blk + n > s.cfg.fb) : fit n s r = .next (overrunState s n) := by
  simp [fit, h, raiseOverrun_eq]

theorem fit_holds {n : Nat} (r : Result) (h : s.blk + n ≤ s.cfg.fb) : fit n s r = r := by
  simp [fit, h]

/-- What `Need` answers: the underflow state, or what follows. -/
theorem need_cases {k : Nat} {r : Result} : need k s r = .next (underflowState s k) ∨ need k s r = r := by
  by_cases h : s.cur + k > s.inp.length
  · exact .inl (need_fails s r h)
  · exact .inr (need_holds s r (by omega))

/-- What `Fit` answers: the overrun state, or what follows. -/
theorem fit_cases {n : Nat} {r : Result} : fit n s r = .next (overrunState s n) ∨ fit n s r = r := by
  by_cases h : s.blk + n > s.cfg.fb
  · exact .inl (fit_fails s r h)
  · exact .inr (fit_holds s r (by omega))

theorem skipBlocks_eq (a n : Nat) : s.skipBlocks a n = { s with trace := s.trace ++ skipEvents a n } := by
  unfold State.skipBlocks skipEvents
  by_cases h : n = 0
  · simp [h]
  · simp [h, Nat.pos_of_ne_zero h, State.emit]

/-- A run of writes inside DM: its `Put` events and its bytes, nothing else. -/
theorem putBlocks_eq (a : Nat) (d : List Byte) (h : a + d.length ≤ s.cfg.fb) :
    putBlocks a d s = .next { s with trace := s.trace ++ putEvents a d, dm := writeAll s.dm a d } := by
  induction d generalizing a s with
  | nil => simp [putBlocks, putEvents, writeAll]
  | cons v d ih =>
    simp only [List.length_cons] at h
    have ha : a < s.cfg.fb := by omega
    simp only [putBlocks, if_pos ha]
    rw [ih (s.putBlock a v) (a + 1) (by simp; omega)]
    simp [putEvents, writeAll, State.putBlock, State.emit, List.append_assoc]

/-- Everything a run of writes can answer: its events and bytes, or the fault of a block DM does not have. -/
theorem putBlocks_cases (a : Nat) (d : List Byte) :
    putBlocks a d s = .next { s with trace := s.trace ++ putEvents a d, dm := writeAll s.dm a d } ∨
      ∃ b, s.cfg.fb ≤ b ∧ putBlocks a d s = .fault (.noSuchBlock b) := by
  induction d generalizing a s with
  | nil => left; simp [putBlocks, putEvents, writeAll]
  | cons v d ih =>
    by_cases ha : a < s.cfg.fb
    · simp only [putBlocks, if_pos ha]
      rcases ih (s.putBlock a v) (a + 1) with h | ⟨b, hb, h⟩
      · left; rw [h]; simp [putEvents, writeAll, State.putBlock, State.emit, List.append_assoc]
      · exact .inr ⟨b, by simpa using hb, h⟩
    · exact .inr ⟨a, by omega, by simp [putBlocks, ha]⟩

/-- The end of an instruction, field by field. -/
theorem retire_eq (n len : Nat) :
    retire n len s = .next { s with
      cur := s.cur + len
      blk := if s.blk + n = s.cfg.fb then 0 else s.blk + n
      dframes := if s.blk + n = s.cfg.fb then s.dframes + 1 else s.dframes
      trace := s.trace ++ (if s.blk + n = s.cfg.fb then [.frameEnd s.dframes] else []) } := by
  unfold retire State.boundary State.advance State.emit
  by_cases h : s.blk + n = s.cfg.fb <;> simp [h]

/-- DM read after a run of writes (10_state.md R31). -/
theorem dmByte_writeAll {s t : State} {a : Nat} {d : List Byte} (hm : t.dm = writeAll s.dm a d)
    (hk : t.resetCount = s.resetCount) (b : Nat) :
    t.dmByte b = if a ≤ b ∧ b < a + d.length then d.getD (b - a) 0 else s.dmByte b := by
  unfold State.dmByte
  rw [hm, hk, lookup_writeAll]
  split <;> simp

/-- Skip, write, skip, then the end of an instruction: what an instruction that completes leaves. Every meaning is this with its own
counts (42_opcode_decoder.md R175 to R181). -/
theorem skip_put_skip_retire (pre post len : Nat) (d : List Byte) (h : s.blk + (pre + d.length + post) ≤ s.cfg.fb) :
    ∃ t, andThen (putBlocks (s.blk + pre) d (s.skipBlocks s.blk pre)) (fun s' =>
        retire (pre + d.length + post) len (s'.skipBlocks (s.blk + pre + d.length) post)) = .next t ∧
      t.dm = writeAll s.dm (s.blk + pre) d ∧
      Effect s t len (pre + d.length + post) (s.blk + pre) d
        (skipEvents s.blk pre ++ putEvents (s.blk + pre) d ++ skipEvents (s.blk + pre + d.length) post) := by
  rw [skipBlocks_eq, putBlocks_eq _ _ _ (by simp; omega)]
  simp only [andThen, skipBlocks_eq, retire_eq]
  refine ⟨_, rfl, rfl, ?_⟩
  exact {
    cur_eq := rfl
    blk_eq := rfl
    dframes_eq := rfl
    trace_eq := by simp [List.append_assoc]
    dm_eq := by intro b; apply dmByte_writeAll (s := s) <;> rfl
    rest_eq := rfl }

end Sys2Proof.Machine
end

