-- ==== Sys2Proof/Laws/Exec.lean ====
section
/-! SUPPORT. What an instruction can answer, said once for all seven (42_opcode_decoder.md R175 to R181), and what a step runs. -/

namespace Sys2Proof.Machine

theorem putBytes_length (i : Instr) : i.putBytes.length = i.put := by
  cases i <;> simp [Instr.putBytes, Instr.put]

theorem skipBlocks_none (s : State) (a : Nat) : s.skipBlocks a 0 = s := rfl

theorem putBlocks_none (s : State) (a : Nat) : putBlocks a [] s = .next s := rfl

theorem andThen_next (s : State) (f : State → Result) : andThen (.next s) f = f s := rfl

/-- The instruction's needs hold and it fits: it completes with its effect. -/
theorem exec_completes (i : Instr) (s : State) (hn : s.cur + i.byteLength ≤ s.inp.length) (hf : s.blk + i.adv ≤ s.cfg.fb) :
    ∃ t, exec i s = .next t ∧ t.dm = writeAll s.dm (putBase i s.blk) i.putBytes ∧
      Effect s t i.byteLength i.adv (putBase i s.blk) i.putBytes (instrEvents i s.blk) := by
  cases i with
  | longSkip n =>
    simp only [Instr.byteLength, Instr.adv, Instr.put, Instr.skip, Instr.skipBefore, Instr.skipAfter] at hn hf
    have h := skip_put_skip_retire s n 0 2 [] (by simpa using hf)
    simp only [putBlocks_none, andThen_next, skipBlocks_none, List.length_nil, Nat.add_zero] at h
    simpa [exec, execLongSkip, need_holds _ _ hn, fit_holds _ _ (show s.blk + n ≤ s.cfg.fb by omega), instrEvents, putBase,
      Instr.putBytes, Instr.byteLength, Instr.adv, Instr.put, Instr.skip, Instr.skipBefore, Instr.skipAfter] using h
  | skipCopy sk d =>
    simp only [Instr.byteLength, Instr.adv, Instr.put, Instr.skip, Instr.skipBefore, Instr.skipAfter] at hn hf
    have h := skip_put_skip_retire s sk 0 (1 + d.length) d (by omega)
    simp only [skipBlocks_none, Nat.add_zero] at h
    simpa [exec, execSkipCopy, need_holds _ _ hn, fit_holds _ _ (show s.blk + (sk + d.length) ≤ s.cfg.fb by omega), instrEvents,
      putBase, Instr.putBytes, Instr.byteLength, Instr.adv, Instr.put, Instr.skip, Instr.skipBefore, Instr.skipAfter,
      Nat.add_comm d.length sk] using h
  | longCopy d =>
    simp only [Instr.byteLength, Instr.adv, Instr.put, Instr.skip, Instr.skipBefore, Instr.skipAfter] at hn hf
    have h := skip_put_skip_retire s 0 0 (2 + d.length) d (by omega)
    simp only [skipBlocks_none, Nat.add_zero, Nat.zero_add] at h
    simpa [exec, execLongCopy, need_holds _ _ hn, need_holds _ _ (show s.cur + 2 ≤ s.inp.length by omega),
      fit_holds _ _ (show s.blk + d.length ≤ s.cfg.fb by omega), instrEvents, putBase, Instr.putBytes, Instr.byteLength, Instr.adv,
      Instr.put, Instr.skip, Instr.skipBefore, Instr.skipAfter] using h
  | copySkip d sk =>
    simp only [Instr.byteLength, Instr.adv, Instr.put, Instr.skip, Instr.skipBefore, Instr.skipAfter] at hn hf
    have h := skip_put_skip_retire s 0 sk (1 + d.length) d (by omega)
    simp only [skipBlocks_none, Nat.add_zero, Nat.zero_add] at h
    simpa [exec, execCopySkip, need_holds _ _ hn, fit_holds _ _ (show s.blk + (d.length + sk) ≤ s.cfg.fb by omega), instrEvents,
      putBase, Instr.putBytes, Instr.byteLength, Instr.adv, Instr.put, Instr.skip, Instr.skipBefore, Instr.skipAfter] using h
  | repeatByte n v =>
    simp only [Instr.byteLength, Instr.adv, Instr.put, Instr.skip, Instr.skipBefore, Instr.skipAfter] at hn hf
    have h := skip_put_skip_retire s 0 0 2 (List.replicate n v) (by simpa using hf)
    simp only [skipBlocks_none, Nat.add_zero, Nat.zero_add, List.length_replicate] at h
    simpa [exec, execRepeatByte, replicateThenSkip, need_holds _ _ hn, fit_holds _ _ (show s.blk + n ≤ s.cfg.fb by omega),
      instrEvents, putBase, Instr.putBytes, Instr.byteLength, Instr.adv, Instr.put, Instr.skip, Instr.skipBefore, Instr.skipAfter,
      skipBlocks_none] using h
  | repeatSkip n sk v =>
    simp only [Instr.byteLength, Instr.adv, Instr.put, Instr.skip, Instr.skipBefore, Instr.skipAfter] at hn hf
    have h := skip_put_skip_retire s 0 sk 2 (List.replicate n v) (by simp; omega)
    simp only [skipBlocks_none, Nat.add_zero, Nat.zero_add, List.length_replicate] at h
    simpa [exec, execRepeatSkip, replicateThenSkip, need_holds _ _ hn, fit_holds _ _ (show s.blk + (n + sk) ≤ s.cfg.fb by omega),
      instrEvents, putBase, Instr.putBytes, Instr.byteLength, Instr.adv, Instr.put, Instr.skip, Instr.skipBefore,
      Instr.skipAfter] using h
  | repeat7 n v =>
    simp only [Instr.byteLength, Instr.adv, Instr.put, Instr.skip, Instr.skipBefore, Instr.skipAfter] at hn hf
    have h := skip_put_skip_retire s 0 0 2 (List.replicate n v) (by simpa using hf)
    simp only [skipBlocks_none, Nat.add_zero, Nat.zero_add, List.length_replicate] at h
    simpa [exec, execRepeat7, replicateThenSkip, need_holds _ _ hn, fit_holds _ _ (show s.blk + n ≤ s.cfg.fb by omega),
      instrEvents, putBase, Instr.putBytes, Instr.byteLength, Instr.adv, Instr.put, Instr.skip, Instr.skipBefore, Instr.skipAfter,
      skipBlocks_none] using h

/-- The bytes an instruction needs before it can go on: its length, but for a LongCopy whose count byte is missing already
(42_opcode_decoder.md R178). -/
def needOf (i : Instr) (s : State) : Nat :=
  match i with
  | .longCopy d => if s.cur + 2 > s.inp.length then 2 else 2 + d.length
  | .longSkip _ => i.byteLength
  | .skipCopy _ _ => i.byteLength
  | .copySkip _ _ => i.byteLength
  | .repeatByte _ _ => i.byteLength
  | .repeatSkip _ _ _ => i.byteLength
  | .repeat7 _ _ => i.byteLength

/-- The instruction is cut short: StreamUnderflow, whatever `Fit` would say (60_exceptions.md R217). -/
theorem exec_underflows (i : Instr) (s : State) (hn : s.cur + i.byteLength > s.inp.length) :
    exec i s = .next (underflowState s (needOf i s)) := by
  cases i <;> simp only [Instr.byteLength] at hn <;>
    simp only [exec, execLongSkip, execSkipCopy, execCopySkip, execRepeatByte, execRepeatSkip, execRepeat7, replicateThenSkip,
      needOf, Instr.byteLength, need_fails _ _ hn]
  case longCopy d =>
    by_cases h : s.cur + 2 > s.inp.length
    · simp [execLongCopy, need_fails _ _ h, h]
    · simp [execLongCopy, need_holds _ _ (show s.cur + 2 ≤ s.inp.length by omega), need_fails _ _ hn, h]

/-- The instruction is whole and does not fit: FrameOverrun. -/
theorem exec_overruns (i : Instr) (s : State) (hn : s.cur + i.byteLength ≤ s.inp.length) (hf : s.blk + i.adv > s.cfg.fb) :
    exec i s = .next (overrunState s i.adv) := by
  cases i with
  | longCopy d =>
    simp only [Instr.byteLength, Instr.adv, Instr.put, Instr.skip, Instr.skipBefore, Instr.skipAfter, Nat.add_zero] at hn hf ⊢
    rw [exec, execLongCopy, need_holds _ _ (by omega), need_holds _ _ hn, fit_fails _ _ hf]
  | skipCopy sk d =>
    simp only [Instr.byteLength, Instr.adv, Instr.put, Instr.skip, Instr.skipBefore, Instr.skipAfter, Nat.add_zero,
      Nat.add_comm d.length sk] at hn hf ⊢
    rw [exec, execSkipCopy, need_holds _ _ hn, fit_fails _ _ hf]
  | longSkip n | copySkip d sk | repeatByte n v | repeatSkip n sk v | repeat7 n v =>
    simp only [Instr.byteLength, Instr.adv, Instr.put, Instr.skip, Instr.skipBefore, Instr.skipAfter, Nat.add_zero,
      Nat.zero_add] at hn hf ⊢
    simp only [exec, execLongSkip, execCopySkip, execRepeatByte, execRepeatSkip, execRepeat7, replicateThenSkip,
      need_holds _ _ hn, Nat.add_zero, fit_fails _ _ hf]

/-- Everything an instruction can answer. -/
theorem exec_inversion (i : Instr) (s : State) :
    (s.cur + i.byteLength > s.inp.length ∧ exec i s = .next (underflowState s (needOf i s))) ∨
    (s.cur + i.byteLength ≤ s.inp.length ∧ s.blk + i.adv > s.cfg.fb ∧ exec i s = .next (overrunState s i.adv)) ∨
    (s.cur + i.byteLength ≤ s.inp.length ∧ s.blk + i.adv ≤ s.cfg.fb ∧ ∃ t, exec i s = .next t ∧
      t.dm = writeAll s.dm (putBase i s.blk) i.putBytes ∧
      Effect s t i.byteLength i.adv (putBase i s.blk) i.putBytes (instrEvents i s.blk)) := by
  by_cases hn : s.cur + i.byteLength > s.inp.length
  · exact .inl ⟨hn, exec_underflows i s hn⟩
  · by_cases hf : s.blk + i.adv > s.cfg.fb
    · exact .inr (.inl ⟨by omega, hf, exec_overruns i s (by omega) hf⟩)
    · exact .inr (.inr ⟨by omega, by omega, exec_completes i s (by omega) (by omega)⟩)

end Sys2Proof.Machine
end

