-- ==== Sys2Proof/Laws/PerInstr.lean ====
section
/-! SUPPORT. Families stated per instruction: EncodeLength (30_encoding.md R81) and AdvanceBounds (R82, column "range of adv"). -/

namespace Sys2Proof.Laws

/-- The packed bytes are as many as the length table says (30_encoding.md R81). -/
def EncodeLength.Statement (i : Instr) : Prop := (encode i).length = i.byteLength

theorem EncodeLength.longSkip (n : Nat) : EncodeLength.Statement (.longSkip n) := rfl

theorem EncodeLength.skipCopy (s : Nat) (d : List Byte) : EncodeLength.Statement (.skipCopy s d) := by
  simp [EncodeLength.Statement, encode, Instr.byteLength]; omega

theorem EncodeLength.longCopy (d : List Byte) : EncodeLength.Statement (.longCopy d) := by
  simp [EncodeLength.Statement, encode, Instr.byteLength]; omega

theorem EncodeLength.copySkip (d : List Byte) (s : Nat) : EncodeLength.Statement (.copySkip d s) := by
  simp [EncodeLength.Statement, encode, Instr.byteLength]; omega

theorem EncodeLength.repeatByte (n : Nat) (v : Byte) : EncodeLength.Statement (.repeatByte n v) := rfl

theorem EncodeLength.repeatSkip (n s : Nat) (v : Byte) : EncodeLength.Statement (.repeatSkip n s v) := rfl

theorem EncodeLength.repeat7 (n : Nat) (v : Byte) : EncodeLength.Statement (.repeat7 n v) := rfl

/-- The range of blocks a kind advances (30_encoding.md R82). -/
def advRange : Instr → Nat × Nat
  | .longSkip _ => (1, 256)
  | .skipCopy _ _ => (1, 14)
  | .longCopy _ => (1, 256)
  | .copySkip _ _ => (1, 14)
  | .repeatByte _ _ => (1, 64)
  | .repeatSkip _ _ _ => (0, 14)
  | .repeat7 _ _ => (1, 128)

/-- A well-formed instruction advances a number of blocks in its kind's range (30_encoding.md R82). -/
def AdvanceBounds.Statement (i : Instr) : Prop := i.wf = true → (advRange i).1 ≤ i.adv ∧ i.adv ≤ (advRange i).2

theorem AdvanceBounds.longSkip (n : Nat) : AdvanceBounds.Statement (.longSkip n) := by
  simp [AdvanceBounds.Statement, Instr.wf, advRange, Instr.adv, Instr.put, Instr.skip, Instr.skipBefore, Instr.skipAfter,
    Config.longMax]

theorem AdvanceBounds.skipCopy (s : Nat) (d : List Byte) : AdvanceBounds.Statement (.skipCopy s d) := by
  simp only [AdvanceBounds.Statement, Instr.wf, advRange, Instr.adv, Instr.put, Instr.skip, Instr.skipBefore, Instr.skipAfter,
    Config.shortMax, Bool.and_eq_true, Bool.or_eq_true, decide_eq_true_eq, bne_iff_ne]
  omega

theorem AdvanceBounds.longCopy (d : List Byte) : AdvanceBounds.Statement (.longCopy d) := by
  simp only [AdvanceBounds.Statement, Instr.wf, advRange, Instr.adv, Instr.put, Instr.skip, Instr.skipBefore, Instr.skipAfter,
    Config.longMax, Bool.and_eq_true, decide_eq_true_eq]
  omega

theorem AdvanceBounds.copySkip (d : List Byte) (s : Nat) : AdvanceBounds.Statement (.copySkip d s) := by
  simp only [AdvanceBounds.Statement, Instr.wf, advRange, Instr.adv, Instr.put, Instr.skip, Instr.skipBefore, Instr.skipAfter,
    Config.shortMax, Bool.and_eq_true, Bool.or_eq_true, decide_eq_true_eq, bne_iff_ne]
  omega

theorem AdvanceBounds.repeatByte (n : Nat) (v : Byte) : AdvanceBounds.Statement (.repeatByte n v) := by
  simp [AdvanceBounds.Statement, Instr.wf, advRange, Instr.adv, Instr.put, Instr.skip, Instr.skipBefore, Instr.skipAfter,
    Config.repeatChunk]

theorem AdvanceBounds.repeatSkip (n s : Nat) (v : Byte) : AdvanceBounds.Statement (.repeatSkip n s v) := by
  simp only [AdvanceBounds.Statement, Instr.wf, advRange, Instr.adv, Instr.put, Instr.skip, Instr.skipBefore, Instr.skipAfter,
    Config.shortMax, Bool.and_eq_true, decide_eq_true_eq]
  omega

theorem AdvanceBounds.repeat7 (n : Nat) (v : Byte) : AdvanceBounds.Statement (.repeat7 n v) := by
  simp [AdvanceBounds.Statement, Instr.wf, advRange, Instr.adv, Instr.put, Instr.skip, Instr.skipBefore, Instr.skipAfter]

end Sys2Proof.Laws
end

