-- ==== Sys2Proof/Tests/Slice0.lean ====
section
/-! SUPPORT. The model's own tests (expected results from 95_test_vectors.md and the rules' worked examples), and a witness for every
statement with hypotheses. -/

namespace Sys2Proof.Tests

open Sys2Proof Sys2Proof.Machine

/-! ### WellFormed refuses ill-formed terms (30_encoding.md R83 preconditions) -/

theorem test_wf_longSkip_zero : (Instr.longSkip 0).wf = false := by decide
theorem test_wf_longSkip_257 : (Instr.longSkip 257).wf = false := by decide
theorem test_wf_skipCopy_skip_8 : (Instr.skipCopy 8 [0x01]).wf = false := by decide
theorem test_wf_skipCopy_data_8 : (Instr.skipCopy 1 [1, 2, 3, 4, 5, 6, 7, 8]).wf = false := by decide
theorem test_wf_skipCopy_empty : (Instr.skipCopy 0 []).wf = false := by decide
theorem test_wf_longCopy_empty : (Instr.longCopy []).wf = false := by decide
theorem test_wf_longCopy_257 : (Instr.longCopy (List.replicate 257 0)).wf = false := by decide +kernel
theorem test_wf_copySkip_data_8 : (Instr.copySkip [1, 2, 3, 4, 5, 6, 7, 8] 1).wf = false := by decide
theorem test_wf_copySkip_skip_8 : (Instr.copySkip [0x01] 8).wf = false := by decide
theorem test_wf_copySkip_empty : (Instr.copySkip [] 0).wf = false := by decide
theorem test_wf_repeat_zero : (Instr.repeatByte 0 0x11).wf = false := by decide
theorem test_wf_repeat_65 : (Instr.repeatByte 65 0x11).wf = false := by decide
theorem test_wf_repeatSkip_count_8 : (Instr.repeatSkip 8 0 0x11).wf = false := by decide
theorem test_wf_repeatSkip_skip_8 : (Instr.repeatSkip 0 8 0x11).wf = false := by decide
theorem test_wf_repeat7_zero : (Instr.repeat7 0 0x11).wf = false := by decide
theorem test_wf_repeat7_129 : (Instr.repeat7 129 0x11).wf = false := by decide
theorem test_layout_sevenBit_has_no_repeatSkip : (Instr.repeatSkip 5 3 0xFF).inLayout .sevenBit = false := by decide
theorem test_layout_sevenBit_has_no_sixBit_repeat : (Instr.repeatByte 8 0xFF).inLayout .sevenBit = false := by decide
theorem test_layout_sixBit_has_no_repeat7 : (Instr.repeat7 8 0xFF).inLayout .sixBit = false := by decide

/-! ### Decoding, words written out from 30_encoding.md R72 to R78 -/

/-- R72: S = 011, C = 010. -/
theorem test_decode_skipCopy :
    decode .sixBit [0b00011010, 0xA1, 0xA2, 0x55] = .ok (.skipCopy 3 [0xA1, 0xA2], [0x55]) := by rfl
/-- R84: 0x03 is a SkipCopy with S = 0. -/
theorem test_decode_skipCopy_noncanonical :
    decode .sevenBit [0b00000011, 0x01, 0x02, 0x03] = .ok (.skipCopy 0 [0x01, 0x02, 0x03], []) := by rfl
/-- R73. -/
theorem test_decode_longSkip : decode .sixBit [0b00000000, 0b11111111] = .ok (.longSkip 256, []) := by rfl
/-- R74: C = 010 in the upper field, S = 110 in the lower. -/
theorem test_decode_copySkip :
    decode .sixBit [0b01010110, 0x10, 0x20] = .ok (.copySkip [0x10, 0x20] 6, []) := by rfl
/-- R75: N = 1. -/
theorem test_decode_longCopy : decode .sixBit [0b01000000, 0b00000001, 0xAB, 0xCD] = .ok (.longCopy [0xAB, 0xCD], []) := by rfl
/-- R76: R = 000111. -/
theorem test_decode_repeat : decode .sixBit [0b10000111, 0xFF] = .ok (.repeatByte 8 0xFF, []) := by rfl
/-- R77: R = 101, S = 011. -/
theorem test_decode_repeatSkip : decode .sixBit [0b11101011, 0xFF] = .ok (.repeatSkip 5 3 0xFF, []) := by rfl
/-- R78: R = 1101011 = 107. -/
theorem test_decode_repeat7 : decode .sevenBit [0b11101011, 0xFF] = .ok (.repeat7 108 0xFF, []) := by rfl
/-- X21: a LongCopy of 6 with two data bytes needs 8 bytes. -/
theorem test_decode_truncated : decode .sixBit [0x40, 0x05, 0x01, 0x02] = .error (.truncated 8) := by rfl
/-- The table word 0x071A: opcode byte 0x1A first, then 0x07, zero data after it. -/
theorem test_decodeTableWord : decodeTableWord 16 0x071A = some (.skipCopy 3 [0x07, 0x00]) := by decide +kernel

/-- R83's forms, the bytes of L2 vectors E7, E13, E1, E5, E12. -/
theorem test_encode_forms :
    [encode (.skipCopy 3 [0xA1, 0xA2]), encode (.copySkip [0x10, 0x20] 6), encode (.repeatSkip 5 3 0xFF),
      encode (.repeatByte 20 0x0F), encode (.longSkip 256)] =
    [[0x1A, 0xA1, 0xA2], [0x56, 0x10, 0x20], [0xEB, 0xFF], [0x93, 0x0F], [0x00, 0xFF]] := by decide

/-! ### One step of each instruction (95_test_vectors.md, FB = 16) -/

/-- W = 8, H = 16: FB = 16. -/
def cfg16 (l : Layout) : Cfg := { w := 8, h := 16, layout := l }

/-- A running decoder at offset 0 with `blk` blocks consumed. -/
def running (l : Layout) (bytes : List Byte) (blk : Nat) : State :=
  { State.afterReset (cfg16 l) 0 [] with inp := bytes, dstate := .run, blk := blk }

/-- The result is a next state with the property. -/
def nextIs (r : Result) (p : State → Bool) : Bool :=
  match r with
  | .next t => p t
  | .fault _ => false
  | .refused _ => false

/-- X1. -/
theorem test_skipCopy : nextIs (step (running .sixBit [0x1A, 0xA1, 0xA2] 0)) (fun t =>
    t.trace == [.adv 0 3, .put 3 0xA1, .put 4 0xA2] && t.blk == 5 && t.cur == 3 && t.dmByte 4 == 0xA2) = true := by decide
/-- X26: the second instruction, blk = 8, would advance 14. -/
theorem test_skipCopy_overrun : nextIs (step (running .sixBit [0x3F, 0, 1, 2, 3, 4, 5, 6] 8)) (fun t =>
    t.dfault == .frameOverrun && t.dfinfo == some ⟨0, 8, none, some 14⟩ && t.trace == [] && t.cur == 0) = true := by decide
/-- X4. -/
theorem test_longSkip : nextIs (step (running .sixBit [0x00, 0x07] 0)) (fun t =>
    t.trace == [.adv 0 8] && t.blk == 8 && t.cur == 2 && t.dm == []) = true := by decide
/-- X20. -/
theorem test_longSkip_truncated : nextIs (step (running .sixBit [0x00] 0)) (fun t =>
    t.dstate == .fault && t.dfault == .streamUnderflow && t.dfinfo == some ⟨0, 0, some 2, none⟩) = true := by decide
/-- X7. -/
theorem test_copySkip : nextIs (step (running .sixBit [0x56, 0x10, 0x20] 0)) (fun t =>
    t.trace == [.put 0 0x10, .put 1 0x20, .adv 2 6] && t.blk == 8 && t.cur == 3) = true := by decide
/-- X8: C = 0. -/
theorem test_copySkip_noncanonical : nextIs (step (running .sixBit [0x45] 0)) (fun t =>
    t.trace == [.adv 0 5] && t.blk == 5 && t.cur == 1) = true := by decide
/-- X10: N = 0. -/
theorem test_longCopy : nextIs (step (running .sixBit [0x40, 0x00, 0xAB] 0)) (fun t =>
    t.trace == [.put 0 0xAB] && t.blk == 1 && t.cur == 3) = true := by decide
/-- X27: the underflow is reported before the overrun. -/
theorem test_longCopy_priority : nextIs (step (running .sixBit [0x40, 0x0F, 0x01] 8)) (fun t =>
    t.dfault == .streamUnderflow && t.dfinfo == some ⟨0, 8, some 18, none⟩) = true := by decide
/-- R179's worked example: the frame ends. -/
theorem test_repeat : nextIs (step (running .sixBit [0x87, 0xFF] 8)) (fun t =>
    t.trace.head? == some (.put 8 0xFF) && t.trace.getLast? == some (.frameEnd 0) && t.blk == 0 && t.dframes == 1 &&
      t.dmByte 15 == 0xFF) = true := by decide
/-- X12: R = 0. -/
theorem test_repeat_once : nextIs (step (running .sixBit [0x80, 0x12] 0)) (fun t =>
    t.trace == [.put 0 0x12] && t.blk == 1 && t.cur == 2) = true := by decide
/-- X14. -/
theorem test_repeatSkip : nextIs (step (running .sixBit [0xEB, 0xFF] 0)) (fun t =>
    t.trace == [.put 0 0xFF, .put 1 0xFF, .put 2 0xFF, .put 3 0xFF, .put 4 0xFF, .adv 5 3] && t.blk == 8 && t.cur == 2) = true := by
  decide
/-- X15: the zero-advance instruction. -/
theorem test_repeatSkip_zero : nextIs (step (running .sixBit [0xC0, 0x5A] 0)) (fun t =>
    t.trace == [] && t.blk == 0 && t.cur == 2 && t.dm == []) = true := by decide
/-- X17. -/
theorem test_repeat7 : nextIs (step (running .sevenBit [0x87, 0xFF] 0)) (fun t =>
    t.trace.length == 8 && t.blk == 8 && t.cur == 2) = true := by decide
/-- X18. -/
theorem test_repeat7_overrun : nextIs (step (running .sevenBit [0xEB, 0xFF] 0)) (fun t =>
    t.dfault == .frameOverrun && t.dfinfo == some ⟨0, 0, none, some 108⟩) = true := by decide
/-- A table word placed by withFetchWord runs as the first instruction after reset. -/
theorem test_withFetchWord : nextIs (step (State.reset.withFetchWord 16 0x0700)) (fun t =>
    t.trace == [.adv 0 8] && t.blk == 8 && t.cur == 2) = true := by decide +kernel

/-! ### The encoder and the host's transactions -/

/-- L1-1, the source's worked example. -/
theorem test_encode_worked_example :
    (State.encodeFrame (List.replicate 8 0x00 ++ List.replicate 8 0xFF)
      { State.afterReset (cfg16 .sixBit) 0 [] with prevValid := true, prev := List.replicate 16 0x00 }).out =
    [0x00, 0x07, 0x87, 0xFF] := by decide
/-- P1: padding. -/
theorem test_encode_padding :
    (State.encodeFrame [1, 2, 3, 4, 5, 6, 7, 8, 9, 10] (State.afterReset (cfg16 .sixBit) 0 [])).out =
    [0x40, 0x09, 1, 2, 3, 4, 5, 6, 7, 8, 9, 10, 0x00, 0x05] := by decide
/-- D6: LengthMismatch before BlockAccountingMismatch. -/
theorem test_encode_length_mismatch :
    (State.encodeFrame (List.replicate 17 0x00) { State.afterReset (cfg16 .sixBit) 0 [] with
      prevValid := true, prev := List.replicate 16 0x00, eframes := 1 }).efinfo = some ⟨1, 16, 17, none⟩ := by decide
/-- P4: BlockAccountingMismatch. -/
theorem test_encode_too_long :
    (State.encodeFrame (List.replicate 17 0x00) (State.afterReset (cfg16 .sixBit) 0 [])).efinfo = some ⟨0, 0, 17, some 17⟩ := by decide
/-- A9, A4: Pass A. -/
theorem test_passA : passA [.skip, .lit 0x09, .skip, .skip] [0x01, 0x09, 0x03, 0x04] = [.lit 0x01, .lit 0x09, .skip 2] ∧
    mergedSkip 257 0x00 = [.skip 256, .skip 1] := by decide
/-- B9, B6: Pass B. -/
theorem test_passB : passB [.lit 5, .lit 5, .lit 5, .skip 4, .lit 5, .lit 5] = [.rep 5 3, .skip 4, .lit 5, .lit 5] ∧
    mergedLit 66 0x3C = [.rep 0x3C 64, .rep 0x3C 2] := by decide
/-- E18: the skip takes the literal first. -/
theorem test_select : select [.skip 2, .lit 0x11, .skip 3] = [.skipCopy 2 [0x11], .skipCopy 3 []] := by decide
/-- The head of Program 2's listing, and the text of two of its lines (30_encoding.md R87). -/
theorem test_listing :
    assemble [.frame, .instr (.repeatSkip 3 2 0xEE), .instr (.skipCopy 1 [0x21, 0x22]), .comment "x", .bytes [0x00]] =
      [0xDA, 0xEE, 0x0A, 0x21, 0x22, 0x00] ∧
    showInstr (.skipCopy 1 [0x21, 0x22]) = "SKIPCOPY 1, 2 : 0x21, 0x22" ∧ showInstr (.repeatByte 3 0x44) = "REPEAT 3, 0x44" ∧
    Line.show (.bytes [0x00, 0x07]) = ".byte 0x00, 0x07" := by
  decide

/-! ### Witnesses: states and operands that meet the hypotheses of each statement -/

theorem witness_DecodeUndoesEncode : (Instr.longSkip 256).wf = true ∧ (Instr.longSkip 256).inLayout .sevenBit = true := by decide
theorem witness_EveryOpcodeByteDecodes_truncated : decode .sixBit [0x40, 0xFF] = .error (.truncated 258) := by rfl
theorem witness_EveryOpcodeByteDecodes_enough : 258 ≤ (List.replicate 258 (0 : Byte)).length := List.length_replicate.ge
theorem witness_EncodeUndoesDecode : decode .sixBit [0xC0, 0x5A] = .ok (.repeatSkip 0 0 0x5A, []) := by rfl
theorem witness_RepeatReadsAlikeUnderBothLayouts : (1 : Nat) ≤ 64 ∧ (64 : Nat) ≤ 64 := by decide

theorem witness_LongSkipExecutes : ∃ (N : Byte) (s u v : State),
    s.cur + 2 > s.inp.length ∧
    (u.cur + 2 ≤ u.inp.length ∧ u.blk + (N.toNat + 1) > u.cfg.fb) ∧
    (v.cur + 2 ≤ v.inp.length ∧ v.blk + (N.toNat + 1) ≤ v.cfg.fb) :=
  ⟨7, running .sixBit [0x00] 0, running .sixBit [0x00, 0x07] 9, running .sixBit [0x00, 0x07] 8, by decide⟩
theorem witness_SkipCopyExecutes : ∃ (S : BitVec 3) (d : List Byte) (s u v : State), d.length ≤ 7 ∧ (S ≠ 0 ∨ d ≠ []) ∧
    s.cur + (1 + d.length) > s.inp.length ∧
    (u.cur + (1 + d.length) ≤ u.inp.length ∧ u.blk + (S.toNat + d.length) > u.cfg.fb) ∧
    (v.cur + (1 + d.length) ≤ v.inp.length ∧ v.blk + (S.toNat + d.length) ≤ v.cfg.fb) :=
  ⟨3, [0xA1, 0xA2], running .sixBit [0x1A, 0xA1] 0, running .sixBit [0x1A, 0xA1, 0xA2] 12, running .sixBit [0x1A, 0xA1, 0xA2] 11,
    by decide⟩
theorem witness_CopySkipExecutes : ∃ (d : List Byte) (S : BitVec 3) (s u v : State), d.length ≤ 7 ∧ (d ≠ [] ∨ S ≠ 0) ∧
    s.cur + (1 + d.length) > s.inp.length ∧
    (u.cur + (1 + d.length) ≤ u.inp.length ∧ u.blk + (d.length + S.toNat) > u.cfg.fb) ∧
    (v.cur + (1 + d.length) ≤ v.inp.length ∧ v.blk + (d.length + S.toNat) ≤ v.cfg.fb) :=
  ⟨[0x10, 0x20], 6, running .sixBit [0x56, 0x10] 0, running .sixBit [0x56, 0x10, 0x20] 9, running .sixBit [0x56, 0x10, 0x20] 8,
    by decide⟩
theorem witness_LongCopyExecutes : ∃ (N : Byte) (d : List Byte) (s r u v : State), d.length = N.toNat + 1 ∧
    s.cur + 2 > s.inp.length ∧
    (r.cur + 2 ≤ r.inp.length ∧ r.cur + (3 + N.toNat) > r.inp.length) ∧
    (u.cur + (3 + N.toNat) ≤ u.inp.length ∧ u.blk + (N.toNat + 1) > u.cfg.fb) ∧
    (v.cur + (3 + N.toNat) ≤ v.inp.length ∧ v.blk + (N.toNat + 1) ≤ v.cfg.fb) :=
  ⟨1, [0xAB, 0xCD], running .sixBit [0x40] 0, running .sixBit [0x40, 0x01, 0xAB] 0, running .sixBit [0x40, 0x01, 0xAB, 0xCD] 15,
    running .sixBit [0x40, 0x01, 0xAB, 0xCD] 14, by decide⟩
theorem witness_RepeatExecutes : ∃ (R : BitVec 6) (s u v : State),
    s.cur + 2 > s.inp.length ∧
    (u.cur + 2 ≤ u.inp.length ∧ u.blk + (R.toNat + 1) > u.cfg.fb) ∧
    (v.cur + 2 ≤ v.inp.length ∧ v.blk + (R.toNat + 1) ≤ v.cfg.fb) :=
  ⟨7, running .sixBit [0x87] 0, running .sixBit [0x87, 0xFF] 9, running .sixBit [0x87, 0xFF] 8, by decide⟩
theorem witness_RepeatSevenBitExecutes : ∃ (R : BitVec 7) (s u v : State),
    s.cur + 2 > s.inp.length ∧
    (u.cur + 2 ≤ u.inp.length ∧ u.blk + (R.toNat + 1) > u.cfg.fb) ∧
    (v.cur + 2 ≤ v.inp.length ∧ v.blk + (R.toNat + 1) ≤ v.cfg.fb) :=
  ⟨7, running .sevenBit [0x87] 0, running .sevenBit [0x87, 0xFF] 9, running .sevenBit [0x87, 0xFF] 8, by decide⟩
theorem witness_RepeatSkipExecutes : ∃ (R S : BitVec 3) (s u v : State),
    s.cur + 2 > s.inp.length ∧
    (u.cur + 2 ≤ u.inp.length ∧ u.blk + (R.toNat + S.toNat) > u.cfg.fb) ∧
    (v.cur + 2 ≤ v.inp.length ∧ v.blk + (R.toNat + S.toNat) ≤ v.cfg.fb) :=
  ⟨5, 3, running .sixBit [0xEB] 0, running .sixBit [0xEB, 0xFF] 9, running .sixBit [0xEB, 0xFF] 8, by decide⟩

theorem witness_WritingInstructionFrame : ∃ t, exec (.repeatByte 8 0xFF) (running .sixBit [0x87, 0xFF] 8) = .next t := ⟨_, rfl⟩
theorem witness_LongSkipFrame : ∃ t, exec (.longSkip 8) (running .sixBit [0x00, 0x07] 8) = .next t := ⟨_, rfl⟩
theorem witness_PutEventsAreTheDmWrites : ∃ t, exec (.longCopy [0xAB]) (running .sixBit [0x40, 0x00, 0xAB] 0) = .next t := ⟨_, rfl⟩

theorem witness_StepRunsDecodedInstruction : ∃ (s : State) (i : Instr) (rest : List Byte),
    s.resetDone = true ∧ s.dstate = .run ∧ decode s.cfg.layout (s.inp.drop s.cur) = .ok (i, rest) ∧ s.hostQueue = [] :=
  ⟨running .sixBit [0xEB, 0xFF, 0x00] 0, .repeatSkip 5 3 0xFF, [0x00], rfl, rfl, rfl, rfl⟩
theorem witness_StepRunsDecodedInstruction_queued : ∃ (s : State) (i : Instr) (rest : List Byte) (ts : List Transaction),
    s.resetDone = true ∧ s.dstate = .run ∧ decode s.cfg.layout (s.inp.drop s.cur) = .ok (i, rest) ∧ s.hostQueue = .decStep :: ts :=
  ⟨{ running .sixBit [0xEB, 0xFF, 0x00] 0 with hostQueue := [.decStep, .decStep] }, .repeatSkip 5 3 0xFF, [0x00], [.decStep], rfl, rfl,
    rfl, rfl⟩
theorem witness_TruncatedInstructionUnderflows : ∃ (s : State) (i : Instr) (m : Nat),
    s.resetDone = true ∧ s.dstate = .run ∧ s.hostQueue = [] ∧ i.wf = true ∧ i.inLayout s.cfg.layout = true ∧
    1 ≤ m ∧ m < (encode i).length ∧ s.inp.drop s.cur = (encode i).take m :=
  ⟨running .sixBit [0x40, 0x01, 0xAB] 0, .longCopy [0xAB, 0xCD], 3, rfl, rfl, rfl, by decide, rfl, by decide, by decide, rfl⟩
theorem witness_EndOfStreamStops : ∃ s u : State,
    (s.resetDone = true ∧ s.dstate = .run ∧ s.cur = s.inp.length ∧ s.blk = 0) ∧
    (u.resetDone = true ∧ u.dstate = .run ∧ u.cur = u.inp.length ∧ u.blk ≠ 0) :=
  ⟨running .sixBit [] 0, running .sixBit [] 1, by decide⟩
theorem witness_DecStepOutsideRunDoesNothing : State.reset.resetDone = true ∧ State.reset.dstate ≠ .run := by decide
theorem witness_DecLoadStartsTheStream : ∃ s u : State,
    (s.resetDone = true ∧ (s.dstate = .idle ∨ s.dstate = .done)) ∧ (u.resetDone = true ∧ (u.dstate = .run ∨ u.dstate = .fault)) :=
  ⟨State.reset, running .sixBit [] 0, by decide⟩
theorem witness_CursorAdvancesByInstructionLength : ∃ s t : State,
    s.dstate = .run ∧ s.cur < s.inp.length ∧ runTransaction .decStep s = .next t :=
  ⟨running .sixBit [0xEB, 0xFF] 0, _, rfl, by decide, rfl⟩
theorem witness_DecoderTerminates : ∃ s : State,
    s.resetDone = true ∧ s.hostQueue = [] ∧ s.dstate = .run ∧ s.cur ≤ s.inp.length :=
  ⟨running .sixBit [0xEB, 0xFF, 0x00] 0, by decide⟩
theorem witness_DecoderFaultsArePrecise : ∃ s t : State,
    s.dstate ≠ .fault ∧ runTransaction .decStep s = .next t ∧ t.dstate = .fault :=
  ⟨running .sixBit [0x00, 0x10] 0, _, by decide, rfl, rfl⟩

theorem witness_ResetSetsEveryField : (cfg16 .sevenBit).legal := by decide
theorem witness_OnlyLegalConfigurationsReset : (Cfg.mk 1 8 .sixBit).legal ∧ ¬ (Cfg.mk 5 3 .sixBit).legal ∧
    ¬ (Cfg.mk 0 8 .sixBit).legal := by decide
theorem witness_NothingBeforeTheFirstReset : ({ State.reset with resetDone := false } : State).resetDone = false := rfl
theorem witness_FaultsAreSticky : ∃ s : State, s.resetDone = true ∧ s.estate = .fault ∧ s.dstate = .fault :=
  ⟨{ State.reset with estate := .fault, dstate := .fault }, by decide⟩
theorem witness_FaultsAreSticky_transaction : ∃ s t : State, s.resetDone = true ∧ s.estate = .fault ∧
    (∀ cfg, Transaction.decStep ≠ .reset cfg) ∧ runTransaction .decStep s = .next t :=
  ⟨{ running .sixBit [0xEB, 0xFF] 0 with estate := .fault }, _, rfl, rfl, by simp, rfl⟩
theorem witness_OnlyResetReconfigures : ∃ t, runTransaction (.encodeFrame [0x01]) State.reset = .next t := ⟨_, rfl⟩
theorem witness_StepTakesOldestTransaction :
    ({ State.reset with hostQueue := [.decLoad []] } : State).hostQueue = .decLoad [] :: [] ∧ State.reset.hostQueue = [] := by decide
theorem witness_RefusalsAreTheSpecs_beforeReset : step { State.reset with resetDone := false } = .refused .beforeReset := rfl
theorem witness_RefusalsAreTheSpecs_illegalConfig :
    step { State.reset with hostQueue := [.reset (Cfg.mk 5 3 .sixBit)] } = .refused .illegalConfig := rfl
theorem witness_RefusalsAreTheSpecs_decoderBusy :
    step { running .sixBit [] 0 with hostQueue := [.decLoad []] } = .refused .decoderBusy := rfl
theorem witness_ResetMeetsInvariant : (Cfg.mk 10 12 .sixBit).legal := by decide

/-- A running state in the middle of a frame meets the invariant, and its step answers a next state. -/
theorem witness_StepKeepsInvariant : ∃ s t : State, s.Inv ∧ step s = .next t := by
  refine ⟨{ running .sixBit [0x00, 0x07, 0x87, 0xFF] 8 with cur := 2, trace := [.adv 0 8] }, _, ?_, rfl⟩
  constructor <;> decide

theorem witness_EncoderSeesOnlyItsOwnState : SameEncoder (State.afterReset (cfg16 .sixBit) 0 [])
    (State.afterReset (cfg16 .sevenBit) 5 [.decStep]) := by constructor <;> rfl
theorem witness_DecoderSeesOnlyItsOwnState : ∃ t, runTransaction .decStep (running .sixBit [0xEB, 0xFF] 0) = .next t ∧
    SameDecoder (running .sixBit [0xEB, 0xFF] 0) { running .sixBit [0xEB, 0xFF] 0 with out := [0x01], eframes := 1 } :=
  ⟨_, rfl, by constructor <;> rfl⟩

theorem witness_ClassifyComparesByteForByte : ∃ (s u : State) (cur : List Byte),
    s.prevValid = false ∧ (u.prevValid = true ∧ u.prev.length = cur.length) ∧ (u.prevValid = true ∧ u.prev.length ≠ ([] : List Byte).length) :=
  ⟨State.reset, { State.reset with prevValid := true, prev := [0x01] }, [0x02], by decide⟩
theorem witness_PassAMergesSkipGroups : 2 ≤ [(0x01 : Byte), 0x02].length ∧ [Elem.skip].length = [(0x01 : Byte)].length := by decide
theorem witness_PassBMergesLiteralGroups : (2 : Nat) ≤ 2 ∧ (3 : Nat) ≤ 3 ∧ (0x01 : Byte) ≠ 0x02 := by decide
theorem witness_RunsReproduceRaster : ∃ es, classify { State.reset with prevValid := true, prev := [0x01, 0x02] } [0x01, 0x03] = .ok es :=
  ⟨_, rfl⟩
theorem witness_RunCountsInBounds : ∃ es r, classify State.reset [0x05, 0x05, 0x05] = .ok es ∧ r ∈ passB (passA es [0x05, 0x05, 0x05]) :=
  ⟨_, .rep 0x05 3, rfl, by decide⟩
theorem witness_SelectAtRepeatRun : (7 : Nat) ≤ 7 ∧ [Run.skip 7] = .skip 7 :: [] ∧ startsWithShortSkip [.skip 8] = false ∧
    (8 : Nat) ≤ 8 := by decide
theorem witness_SelectAtSkipRun : ∃ (d e : List Byte) (after : List Run),
    (7 : Nat) ≤ 7 ∧ (1 ≤ d.length ∧ d.length ≤ 7 ∧ startsWithLit after = false) ∧ startsWithLit [.rep 0x00 4] = false ∧ 8 ≤ e.length :=
  ⟨[1, 2, 3, 4, 5, 6, 7], [1, 2, 3, 4, 5, 6, 7, 8], [.skip 3], by decide⟩
theorem witness_SelectAtLiteralRun : ∃ (d e : List Byte),
    (1 ≤ d.length ∧ d.length ≤ 7) ∧ (startsWithLit [.skip 8] = false ∧ startsWithShortSkip [.skip 8] = false) ∧
    (8 ≤ e.length ∧ e.length ≤ 256 ∧ (e.length = 256 ∨ startsWithLit [] = false)) :=
  ⟨[1, 2, 3, 4, 5, 6, 7], [1, 2, 3, 4, 5, 6, 7, 8], by decide⟩
theorem witness_SelectEmitsCanonicalInstructions : (∀ r ∈ [Run.skip 1, .rep 0x3C 64, .lit 0x01], runInBounds r = true) ∧
    Instr.skipCopy 1 [] ∈ select [.skip 1, .rep 0x3C 64, .lit 0x01] := by decide
theorem witness_PaddingReachesFrameSize : (16 : Nat) ≤ 16 ∧ (0 : Nat) ≤ 300 := by decide
theorem witness_EncodeFrameFaults : ∃ (s u : State) (r : List Byte),
    (s.estate = .ready ∧ s.prevValid = true ∧ s.prev.length ≠ r.length) ∧
    (u.estate = .ready ∧ (u.prevValid = true → u.prev.length = r.length) ∧ r.length > u.cfg.fb) :=
  ⟨{ State.reset with prevValid := true }, State.afterReset (cfg16 .sixBit) 0 [], List.replicate 17 0x00, by decide⟩
theorem witness_EncodeFrameCommits : ∃ (s : State) (r : List Byte), s.resetDone = true ∧ s.estate = .ready ∧
    (s.prevValid = true → s.prev.length = r.length) ∧ r.length ≤ s.cfg.fb :=
  ⟨State.afterReset (cfg16 .sixBit) 0 [], List.replicate 16 0x00, by decide⟩
theorem witness_FirstFrameHasNoSkipClass : ∃ es i, State.reset.prevValid = false ∧ classify State.reset [0xAA, 0x55] = .ok es ∧
    i ∈ frameInstrs es [0xAA, 0x55] := ⟨_, .copySkip [0xAA, 0x55] 0, rfl, rfl, by decide⟩
theorem witness_IdenticalFrameEmitsOnlySkips : ∃ s : State, s.estate = .ready ∧ s.prevValid = true ∧ 2 ≤ s.prev.length ∧
    s.prev.length ≤ s.cfg.fb :=
  ⟨{ State.afterReset (cfg16 .sixBit) 0 [] with prevValid := true, prev := [0x5A, 0x5A] }, by decide⟩
theorem witness_CountBoundaryPicksTheForm : ∃ d e : List Byte, d.length = 8 ∧ e.length = 7 ∧ startsWithLit [.skip 3] = false ∧
    (7 : Nat) ≤ 7 := ⟨List.replicate 8 0x01, List.replicate 7 0x01, by decide⟩

theorem witness_FrameDecodesToRaster : ∃ (e s : State) (raster bytes rest : List Byte),
    e.estate = .ready ∧ (e.prevValid = true → e.prev.length = raster.length) ∧ raster.length ≤ e.cfg.fb ∧
    (e.encodeFrame raster).out = e.out ++ bytes ∧ s.resetDone = true ∧ s.hostQueue = [] ∧ s.dstate = .run ∧ s.cfg.legal ∧
    s.cfg.layout = .sixBit ∧ s.cfg.fb = e.cfg.fb ∧ s.blk = 0 ∧ (e.prevValid = true → dmBlocks s raster.length = e.prev) ∧
    s.inp.drop s.cur = bytes ++ rest :=
  ⟨{ State.afterReset (cfg16 .sixBit) 0 [] with prevValid := true, prev := [0x11, 0x22] },
    { running .sixBit [0x50, 0x11, 0x33, 0x00, 0x0D, 0xC0] 0 with dm := [(0, 0x11), (1, 0x22)] },
    [0x11, 0x33], [0x50, 0x11, 0x33, 0x00, 0x0D], [0xC0], by decide⟩

theorem witness_AnimationRoundTrip : ∃ (cfg : Cfg) (frames : List (List Byte)) (RL k : Nat) (q : List Transaction) (e s d : State),
    cfg.legal ∧ cfg.layout = .sixBit ∧ RL ≤ cfg.fb ∧ (∀ f ∈ frames, f.length = RL) ∧
    e = encodeFrames frames (State.afterReset cfg k q) ∧ s.cfg = cfg ∧ s.resetDone = true ∧ s.hostQueue = [] ∧
    (s.dstate = .idle ∨ s.dstate = .done) ∧ runTransaction (.decLoad e.out) s = .next d :=
  ⟨cfg16 .sixBit, [[0x01, 0x02], [0x01, 0x03]], 2, 0, [], _, { State.afterReset (cfg16 .sixBit) 3 [] with dm := [(1, 0x77)] }, _,
    by decide, rfl, by decide, by decide, rfl, rfl, rfl, rfl, .inl rfl, rfl⟩

end Sys2Proof.Tests
end

namespace Sys2Proof.Machine

/-! ### One step is one transaction (00_scope.md R5) -/

theorem step_of_queue_cons {s : State} {t : Transaction} {ts : List Transaction} (h : s.hostQueue = t :: ts) :
    step s = runTransaction t { s with hostQueue := ts } := by
  simp only [step, hostStep, h]

theorem step_of_queue_nil {s : State} (h : s.hostQueue = []) : step s = runTransaction .decStep s := by
  simp only [step, hostStep, h]

/-- Settles O29: the two cases of the host's queue. -/
theorem stepTakesOldestTransaction : Obligations.StepTakesOldestTransaction :=
  ⟨fun _ _ _ => step_of_queue_cons, fun _ => step_of_queue_nil⟩

/-! ### What EncodeFrame reads (00_scope.md R6, R9)

Each operation of the encoder takes two states with the same encoder view to two states with the same encoder view. -/

section EncoderReads

variable {s s' : State}

theorem SameEncoder.raiseEnc (h : SameEncoder s s') (k : EFault) (i : EInfo) :
    SameEncoder (s.raiseEnc k i) (s'.raiseEnc k i) :=
  { h with estate_eq := rfl, efault_eq := rfl, efinfo_eq := rfl }

theorem SameEncoder.raiseAccounting (h : SameEncoder s s') (raster : List Byte) (n : Nat) :
    SameEncoder (s.raiseAccounting raster n) (s'.raiseAccounting raster n) := by
  simp only [State.raiseAccounting, h.eframes_eq, h.prev_eq]
  exact h.raiseEnc _ _

theorem SameEncoder.commit (h : SameEncoder s s') (bytes raster : List Byte) :
    SameEncoder (s.commit bytes raster) (s'.commit bytes raster) :=
  { h with
    prevValid_eq := rfl
    prev_eq := rfl
    out_eq := by simp [h.out_eq]
    eframes_eq := by simp [h.eframes_eq] }

theorem SameEncoder.padAndCommit (h : SameEncoder s s') (is : List Instr) (raster : List Byte) :
    SameEncoder (s.padAndCommit is raster) (s'.padAndCommit is raster) := by
  simp only [State.padAndCommit, h.fb_eq]
  split_ifs
  · exact h.raiseAccounting _ _
  · exact h.raiseAccounting _ _
  · exact h.commit _ _

theorem SameEncoder.classify_eq (h : SameEncoder s s') (raster : List Byte) : classify s raster = classify s' raster := by
  simp only [classify, h.prevValid_eq, h.prev_eq, h.eframes_eq]

theorem SameEncoder.encodeFrame (h : SameEncoder s s') (raster : List Byte) :
    SameEncoder (s.encodeFrame raster) (s'.encodeFrame raster) := by
  simp only [State.encodeFrame, h.estate_eq, h.classify_eq]
  split
  · exact h
  · split
    · exact h.raiseEnc _ _
    · exact h.padAndCommit _ _

end EncoderReads

/-! ### What EncodeFrame leaves (00_scope.md R6, 20_memory.md R50) -/

section EncoderFrame

variable (s : State)

theorem SameDecoder.refl : SameDecoder s s := by constructor <;> rfl

theorem raiseEnc_sameDecoder (k : EFault) (i : EInfo) : SameDecoder s (s.raiseEnc k i) := by constructor <;> rfl

theorem commit_sameDecoder (bytes raster : List Byte) : SameDecoder s (s.commit bytes raster) := by constructor <;> rfl

theorem padAndCommit_sameDecoder (is : List Instr) (raster : List Byte) : SameDecoder s (s.padAndCommit is raster) := by
  unfold State.padAndCommit
  split_ifs
  · exact raiseEnc_sameDecoder s _ _
  · exact raiseEnc_sameDecoder s _ _
  · exact commit_sameDecoder s _ _

theorem encodeFrame_sameDecoder (raster : List Byte) : SameDecoder s (s.encodeFrame raster) := by
  unfold State.encodeFrame
  split
  · exact SameDecoder.refl s
  · split
    · exact raiseEnc_sameDecoder s _ _
    · exact padAndCommit_sameDecoder s _ _

end EncoderFrame

/-- Settles O34: every operation of EncodeFrame keeps equal encoder views equal and leaves the decoder's view. -/
theorem encoderSeesOnlyItsOwnState : Obligations.EncoderSeesOnlyItsOwnState :=
  ⟨fun _ _ raster h => h.encodeFrame raster, encodeFrame_sameDecoder⟩

/-! ### What the decoder's transactions leave (00_scope.md R6) -/

section DecoderFrame

variable {s t : State}

theorem SameEncoder.refl (s : State) : SameEncoder s s := by constructor <;> rfl

theorem underflowState_sameEncoder (s : State) (k : Nat) : SameEncoder s (underflowState s k) := by constructor <;> rfl

theorem overrunState_sameEncoder (s : State) (n : Nat) : SameEncoder s (overrunState s n) := by constructor <;> rfl

theorem load_sameEncoder (s : State) (stream : List Byte) : SameEncoder s (s.load stream) := by constructor <;> rfl

theorem Effect.sameEncoder {len adv base : Nat} {data : List Byte} {events : List Event}
    (h : Effect s t len adv base data events) : SameEncoder s t := by
  rw [h.rest_eq]
  constructor <;> rfl

theorem endOfStream_sameEncoder (s : State) : SameEncoder s s.endOfStream := by
  unfold State.endOfStream
  split
  · constructor <;> rfl
  · exact underflowState_sameEncoder s 1

theorem exec_sameEncoder {i : Instr} (h : exec i s = .next t) : SameEncoder s t := by
  obtain ⟨-, he⟩ | ⟨-, -, he⟩ | ⟨-, -, u, he, -, heff⟩ := exec_inversion i s <;>
    obtain rfl := Host.Outcome.next.inj (he.symm.trans h)
  · exact underflowState_sameEncoder s _
  · exact overrunState_sameEncoder s _
  · exact heff.sameEncoder

theorem runFetched_sameEncoder {f : Decoded} (h : runFetched f s = .next t) : SameEncoder s t := by
  match f, h with
  | .ok (_, _), h => exact exec_sameEncoder h
  | .error (.truncated k), h =>
    obtain rfl := Host.Outcome.next.inj h
    exact underflowState_sameEncoder s k

/-- A transaction that answers a next state was not refused for want of a Reset (70_reset_and_hazards.md R242). -/
theorem afterFirstReset_eq_next {r : Result} (h : afterFirstReset s r = .next t) : s.resetDone = true ∧ r = .next t := by
  unfold afterFirstReset at h
  split at h
  · exact ⟨‹_›, h⟩
  · cases h

theorem doDecLoad_eq_next {stream : List Byte} (h : doDecLoad stream s = .next t) : t = s.load stream := by
  obtain ⟨-, h⟩ := afterFirstReset_eq_next h
  cases hd : s.dstate with
  | idle | done => rw [hd] at h; exact (Host.Outcome.next.inj h).symm
  | run | fault => rw [hd] at h; cases h

theorem doDecStep_sameEncoder (h : doDecStep s = .next t) : SameEncoder s t := by
  obtain ⟨-, h⟩ := afterFirstReset_eq_next h
  split_ifs at h
  · obtain rfl := Host.Outcome.next.inj h
    exact SameEncoder.refl _
  · obtain rfl := Host.Outcome.next.inj h
    exact endOfStream_sameEncoder s
  · exact runFetched_sameEncoder h

end DecoderFrame

/-! ### What the decoder's transactions read (00_scope.md R6, 20_memory.md R50) -/

/-- Two answers a decoder with one view cannot tell apart: next states with the same decoder view, or the same refusal. -/
inductive SameAnswer : Result → Result → Prop
  | next {t t' : State} (h : SameDecoder t t') : SameAnswer (.next t) (.next t')
  | refused (r : Refusal) : SameAnswer (.refused r) (.refused r)

theorem SameAnswer.exists_next {r r' : Result} {t : State} (h : SameAnswer r r') (hr : r = .next t) :
    ∃ t', r' = .next t' ∧ SameDecoder t t' := by
  cases h with
  | next h =>
    obtain rfl := Host.Outcome.next.inj hr
    exact ⟨_, rfl, h⟩
  | refused r => cases hr

section DecoderReads

variable {s s' : State}

theorem SameDecoder.underflowState (h : SameDecoder s s') (k : Nat) :
    SameDecoder (underflowState s k) (underflowState s' k) :=
  { h with dstate_eq := rfl, dfault_eq := rfl, dfinfo_eq := by simp [Machine.underflowState, h.cur_eq, h.blk_eq] }

theorem SameDecoder.overrunState (h : SameDecoder s s') (n : Nat) : SameDecoder (overrunState s n) (overrunState s' n) :=
  { h with dstate_eq := rfl, dfault_eq := rfl, dfinfo_eq := by simp [Machine.overrunState, h.cur_eq, h.blk_eq] }

theorem SameDecoder.load (h : SameDecoder s s') (stream : List Byte) : SameDecoder (s.load stream) (s'.load stream) :=
  { h with
    dstate_eq := rfl, dfault_eq := rfl, dfinfo_eq := rfl, inp_eq := rfl, cur_eq := rfl, blk_eq := rfl, dframes_eq := rfl
    trace_eq := rfl }

theorem SameDecoder.endOfStream (h : SameDecoder s s') : SameDecoder s.endOfStream s'.endOfStream := by
  simp only [State.endOfStream, h.blk_eq]
  split
  · exact { h with dstate_eq := rfl, blk_eq := rfl }
  · exact h.underflowState 1

/-- An instruction that completes from two states with the same decoder view leaves two states with the same decoder view. -/
theorem SameDecoder.effect {t t' : State} {len adv base : Nat} {data : List Byte} {events : List Event} (h : SameDecoder s s')
    (e : Effect s t len adv base data events) (e' : Effect s' t' len adv base data events) (hdm : t.dm = t'.dm) :
    SameDecoder t t' := by
  have hcur : t.cur = t'.cur := by rw [e.cur_eq, e'.cur_eq, h.cur_eq]
  have hblk : t.blk = t'.blk := by rw [e.blk_eq, e'.blk_eq, h.blk_eq, h.cfg_eq]
  have hframes : t.dframes = t'.dframes := by rw [e.dframes_eq, e'.dframes_eq, h.blk_eq, h.cfg_eq, h.dframes_eq]
  have htrace : t.trace = t'.trace := by
    rw [e.trace_eq, e'.trace_eq, h.blk_eq, h.cfg_eq, h.dframes_eq, h.trace_eq]
  rw [e.rest_eq, e'.rest_eq]
  exact { h with cur_eq := hcur, blk_eq := hblk, dframes_eq := hframes, trace_eq := htrace, dm_eq := hdm }

theorem SameDecoder.needOf_eq (h : SameDecoder s s') (i : Instr) : needOf i s = needOf i s' := by
  cases i with
  | longCopy d => simp only [needOf, h.cur_eq, h.inp_eq]
  | longSkip | skipCopy | copySkip | repeatByte | repeatSkip | repeat7 => rfl

/-- The three ends of an instruction are told apart by the decoder's view alone, and each leaves a view that depends on it alone. -/
theorem SameDecoder.exec (h : SameDecoder s s') (i : Instr) : SameAnswer (exec i s) (exec i s') := by
  obtain ⟨hn, he⟩ | ⟨hn, hf, he⟩ | ⟨hn, hf, t, he, hdm, heff⟩ := exec_inversion i s
  · rw [h.cur_eq, h.inp_eq] at hn
    rw [he, exec_underflows i s' hn, h.needOf_eq]
    exact .next (h.underflowState _)
  · rw [h.cur_eq, h.inp_eq] at hn
    rw [h.blk_eq, h.cfg_eq] at hf
    rw [he, exec_overruns i s' hn hf]
    exact .next (h.overrunState _)
  · rw [h.cur_eq, h.inp_eq] at hn
    rw [h.blk_eq, h.cfg_eq] at hf
    rw [h.blk_eq] at heff hdm
    obtain ⟨t', he', hdm', heff'⟩ := exec_completes i s' hn hf
    rw [he, he']
    exact .next (h.effect heff heff' (by rw [hdm, hdm', h.dm_eq]))

theorem SameDecoder.fetch_eq (h : SameDecoder s s') : s.fetch = s'.fetch := by
  simp only [State.fetch, h.cfg_eq, h.inp_eq, h.cur_eq]

theorem SameDecoder.runFetched (h : SameDecoder s s') (f : Decoded) : SameAnswer (runFetched f s) (runFetched f s') :=
  match f with
  | .ok (i, _) => h.exec i
  | .error (.truncated k) => .next (h.underflowState k)

theorem SameDecoder.afterFirstReset (h : SameDecoder s s') {r r' : Result} (hr : SameAnswer r r') :
    SameAnswer (afterFirstReset s r) (afterFirstReset s' r') := by
  simp only [Machine.afterFirstReset, h.reset_eq]
  split
  · exact hr
  · exact .refused _

theorem SameDecoder.doDecLoad (h : SameDecoder s s') (stream : List Byte) :
    SameAnswer (doDecLoad stream s) (doDecLoad stream s') := by
  refine h.afterFirstReset ?_
  rw [h.dstate_eq]
  cases s'.dstate with
  | idle | done => exact .next (h.load stream)
  | run | fault => exact .refused _

theorem SameDecoder.doDecStep (h : SameDecoder s s') : SameAnswer (doDecStep s) (doDecStep s') := by
  refine h.afterFirstReset ?_
  rw [h.dstate_eq, h.cur_eq, h.inp_eq, h.fetch_eq]
  split_ifs
  · exact .next h
  · exact .next h.endOfStream
  · exact h.runFetched _

end DecoderReads

/-- Settles O35: DecStep and DecLoad leave the encoder's view, and answer states with the same decoder view alike. -/
theorem decoderSeesOnlyItsOwnState : Obligations.DecoderSeesOnlyItsOwnState := by
  rintro tr s t (rfl | ⟨stream, rfl⟩) ht
  · exact ⟨doDecStep_sameEncoder ht, fun _ h => h.doDecStep.exists_next ht⟩
  · obtain rfl := doDecLoad_eq_next ht
    exact ⟨load_sameEncoder s stream, fun _ h => (h.doDecLoad stream).exists_next ht⟩

end Sys2Proof.Machine

namespace Sys2Proof.Machine

/-! ### What a transaction that answers a next state did (00_scope.md R5) -/

section TransactionInversion

variable {s t : State}

theorem doReset_eq_next {cfg : Cfg} (h : doReset cfg s = .next t) :
    cfg.legal ∧ t = State.afterReset cfg (s.resetCount + 1) s.hostQueue := by
  unfold doReset at h
  split at h
  · exact ⟨‹_›, (Host.Outcome.next.inj h).symm⟩
  · cases h

theorem doEncodeFrame_eq_next {raster : List Byte} (h : doEncodeFrame raster s = .next t) : t = s.encodeFrame raster :=
  (Host.Outcome.next.inj (afterFirstReset_eq_next h).2).symm

/-- The three ends of an instruction, for the state it answers. -/
theorem exec_eq_next {i : Instr} (h : exec i s = .next t) :
    (∃ k, t = underflowState s k) ∨
    (∃ n, s.blk + n > s.cfg.fb ∧ t = overrunState s n) ∨
    (s.cur + i.byteLength ≤ s.inp.length ∧ s.blk + i.adv ≤ s.cfg.fb ∧
      t.dm = writeAll s.dm (putBase i s.blk) i.putBytes ∧
      Effect s t i.byteLength i.adv (putBase i s.blk) i.putBytes (instrEvents i s.blk)) := by
  obtain ⟨-, he⟩ | ⟨-, hf, he⟩ | ⟨hn, hf, u, he, hdm, heff⟩ := exec_inversion i s <;>
    obtain rfl := Host.Outcome.next.inj (he.symm.trans h)
  · exact .inl ⟨_, rfl⟩
  · exact .inr (.inl ⟨_, hf, rfl⟩)
  · exact .inr (.inr ⟨hn, hf, hdm, heff⟩)

theorem runFetched_eq_next {f : Decoded} (h : runFetched f s = .next t) :
    (∃ i rest, f = .ok (i, rest) ∧ exec i s = .next t) ∨ ∃ k, f = .error (.truncated k) ∧ t = underflowState s k := by
  match f, h with
  | .ok (i, rest), h => exact .inl ⟨i, rest, rfl, h⟩
  | .error (.truncated k), h => exact .inr ⟨k, rfl, (Host.Outcome.next.inj h).symm⟩

/-- What a DecStep does: nothing outside RUN, the end of the stream, or the fetched instruction
(42_opcode_decoder.md R171, R182, R183). -/
theorem doDecStep_eq_next (h : doDecStep s = .next t) :
    (s.dstate ≠ .run ∧ t = s) ∨
    (s.dstate = .run ∧ s.cur = s.inp.length ∧ t = s.endOfStream) ∨
    (s.dstate = .run ∧ s.cur ≠ s.inp.length ∧ runFetched s.fetch s = .next t) := by
  obtain ⟨-, h⟩ := afterFirstReset_eq_next h
  split_ifs at h with hrun hend
  · exact .inl ⟨hrun, (Host.Outcome.next.inj h).symm⟩
  · exact .inr (.inl ⟨not_not.mp hrun, hend, (Host.Outcome.next.inj h).symm⟩)
  · exact .inr (.inr ⟨not_not.mp hrun, hend, h⟩)

theorem Effect.dstate_eq {len adv base : Nat} {data : List Byte} {events : List Event}
    (h : Effect s t len adv base data events) : t.dstate = s.dstate := by
  rw [h.rest_eq]

end TransactionInversion

/-! ### The cursor (10_state.md R27, 42_opcode_decoder.md R185) -/

theorem byteLength_pos (i : Instr) : 1 ≤ i.byteLength := by
  cases i <;> simp only [Instr.byteLength] <;> omega

/-- Settles O21: an instruction that faults keeps the cursor, one that completes advances it by its length. -/
theorem cursorAdvancesByInstructionLength : Obligations.CursorAdvancesByInstructionLength := by
  intro s t hrun hcur h
  obtain ⟨hnot, -⟩ | ⟨-, hend, -⟩ | ⟨-, -, h⟩ := doDecStep_eq_next h
  · exact absurd hrun hnot
  · exact absurd hend hcur.ne
  obtain ⟨i, rest, hdecode, h⟩ | ⟨k, -, rfl⟩ := runFetched_eq_next h
  · obtain ⟨k, rfl⟩ | ⟨n, -, rfl⟩ | ⟨-, -, -, heff⟩ := exec_eq_next h
    · exact .inl ⟨rfl, rfl⟩
    · exact .inl ⟨rfl, rfl⟩
    · exact .inr ⟨heff.dstate_eq.trans hrun, i, rest, hdecode, byteLength_pos i, heff.cur_eq⟩
  · exact .inl ⟨rfl, rfl⟩

/-! ### Replaying a trace's Put events (10_state.md R29, R31) -/

theorem replay_append (m : Nat → Byte) (es es' : List Event) : replay m (es ++ es') = replay (replay m es) es' := by
  induction es generalizing m with
  | nil => rfl
  | cons e es ih => cases e <;> exact ih _

theorem replay_skipEvents (m : Nat → Byte) (a n : Nat) : replay m (skipEvents a n) = m := by
  unfold skipEvents
  split <;> rfl

/-- Replaying a run of writes: the written byte inside the run, the old one outside. -/
theorem replay_putEvents (m : Nat → Byte) (a : Nat) (d : List Byte) (b : Nat) :
    replay m (putEvents a d) b = if a ≤ b ∧ b < a + d.length then d.getD (b - a) 0 else m b := by
  induction d generalizing m a with
  | nil => simp [putEvents, replay]
  | cons v d ih =>
    rw [putEvents, replay, ih, List.length_cons]
    obtain hlt | rfl | hgt := Nat.lt_trichotomy b a
    · rw [if_neg (by omega), if_neg (by omega), if_neg (by omega)]
    · simp
    · obtain ⟨k, rfl⟩ : ∃ k, b = a + 1 + k := ⟨b - (a + 1), by omega⟩
      have hk : a + 1 + k - a = k + 1 := by omega
      have hk' : a + 1 + k - (a + 1) = k := by omega
      rw [if_neg (show a + 1 + k ≠ a by omega), hk, hk', List.getD_cons_succ]
      exact if_congr (by omega) rfl rfl

/-- The events of an instruction replay to the bytes it writes. -/
theorem replay_instrEvents (m : Nat → Byte) (i : Instr) (p b : Nat) :
    replay m (instrEvents i p) b =
      if putBase i p ≤ b ∧ b < putBase i p + i.putBytes.length then i.putBytes.getD (b - putBase i p) 0 else m b := by
  rw [instrEvents, replay_append, replay_append, replay_skipEvents, replay_skipEvents, replay_putEvents]

/-- Settles O15: a fault adds no event, and the events of an instruction that completes replay to its writes. -/
theorem putEventsAreTheDmWrites : Obligations.PutEventsAreTheDmWrites := by
  intro i s t h
  obtain ⟨k, rfl⟩ | ⟨n, -, rfl⟩ | ⟨-, -, -, heff⟩ := exec_eq_next h
  · exact ⟨[], (List.append_nil _).symm, fun _ => rfl⟩
  · exact ⟨[], (List.append_nil _).symm, fun _ => rfl⟩
  · refine ⟨_, heff.trace_eq.trans (List.append_assoc _ _ _), fun a => ?_⟩
    have hboundary : ∀ m, replay m (if s.blk + i.adv = s.cfg.fb then [.frameEnd s.dframes] else []) = m := by
      intro m; split <;> rfl
    rw [replay_append, hboundary, replay_instrEvents, heff.dm_eq]

/-! ### The blocks a trace covers (10_state.md R29, 30_encoding.md R82) -/

theorem followTrace_append (fb k p : Nat) (es es' : List Event) :
    followTrace fb k p (es ++ es') = (followTrace fb k p es).bind fun q => followTrace fb q.1 q.2 es' := by
  induction es generalizing k p with
  | nil => rfl
  | cons e es ih =>
    cases e with
    | adv a n | put a v | frameEnd j =>
      simp only [List.cons_append, followTrace, ih]
      split_ifs <;> rfl

theorem followTrace_skipEvents {fb p n : Nat} (k : Nat) (h : p + n ≤ fb) :
    followTrace fb k p (skipEvents p n) = some (k, p + n) := by
  unfold skipEvents
  split_ifs with hn
  · simp [followTrace, hn]
  · simp [followTrace, h, Nat.one_le_iff_ne_zero.mpr hn]

theorem followTrace_putEvents {fb p : Nat} (k : Nat) {d : List Byte} (h : p + d.length ≤ fb) :
    followTrace fb k p (putEvents p d) = some (k, p + d.length) := by
  induction d generalizing p with
  | nil => rfl
  | cons v d ih =>
    rw [List.length_cons] at h ⊢
    rw [putEvents, followTrace, if_pos ⟨rfl, by omega⟩, ih (by omega), Nat.add_right_comm p 1, Nat.add_assoc]

/-- The events of an instruction that fits lead over exactly the blocks it advances. -/
theorem followTrace_instrEvents {fb p : Nat} (k : Nat) {i : Instr} (h : p + i.adv ≤ fb) :
    followTrace fb k p (instrEvents i p) = some (k, p + i.adv) := by
  simp only [Instr.adv, Instr.skip, ← putBytes_length] at h ⊢
  have hbefore := followTrace_skipEvents (fb := fb) (p := p) (n := i.skipBefore) k (by omega)
  have hput := followTrace_putEvents (fb := fb) (p := p + i.skipBefore) (d := i.putBytes) k (by omega)
  have hafter := followTrace_skipEvents (fb := fb) (p := p + i.skipBefore + i.putBytes.length) (n := i.skipAfter) k (by omega)
  simp only [instrEvents, putBase, ← putBytes_length, followTrace_append, hbefore, hput, hafter, Option.bind_some]
  congr 2
  omega

/-- A trace that has reached (DFRAMES, blk) still does after an instruction that fits (42_opcode_decoder.md R174). -/
theorem Effect.trace_covers {s t : State} {i : Instr} {len base : Nat} {data : List Byte}
    (h : Effect s t len i.adv base data (instrEvents i s.blk)) (hfit : s.blk + i.adv ≤ s.cfg.fb)
    (hs : followTrace s.cfg.fb 0 0 s.trace = some (s.dframes, s.blk)) :
    followTrace s.cfg.fb 0 0 t.trace = some (t.dframes, t.blk) := by
  rw [h.trace_eq, h.dframes_eq, h.blk_eq]
  simp only [followTrace_append, hs, followTrace_instrEvents _ hfit, Option.bind_some]
  split_ifs with hend
  · simp [followTrace, hend]
  · rfl

/-! ### The block count through the encoder's stages (40_delta_and_collapse.md R110(a), 41_opcode_encoder.md R142) -/

theorem classifyAgainst_length {prev cur : List Byte} (h : prev.length = cur.length) :
    (classifyAgainst prev cur).length = cur.length := by
  induction prev generalizing cur with
  | nil => simpa [classifyAgainst] using h
  | cons p prev ih =>
    cases cur with
    | nil => rfl
    | cons c cur => simpa [classifyAgainst] using ih (Nat.succ.inj h)

theorem classify_length {s : State} {cur : List Byte} {es : List Elem} (h : classify s cur = .ok es) :
    es.length = cur.length := by
  unfold classify at h
  split_ifs at h with hvalid hlen
  · cases h; exact List.length_map _
  · cases h; exact classifyAgainst_length (not_not.mp hlen)

theorem sum_count_mergedSkip (m : Nat) (b : Byte) : ((mergedSkip m b).map Run.count).sum = m := by
  unfold mergedSkip
  split_ifs with hm
  · simp [Run.count, hm]
  · have hcount : Run.count ∘ Run.skip = id := rfl
    rw [List.map_map, hcount, List.map_id, chunks_sum]

theorem sum_count_passAScan (m : Nat) (b : Byte) (es : List (Elem × Byte)) :
    ((passAScan m b es).map Run.count).sum = m + es.length := by
  induction es generalizing m b with
  | nil => simp [passAScan, sum_count_mergedSkip]
  | cons e es ih =>
    obtain ⟨_ | v, c⟩ := e
    · rw [passAScan, ih, List.length_cons]; omega
    · simp only [passAScan, List.map_append, List.map_cons, List.sum_append, List.sum_cons, sum_count_mergedSkip, ih, Run.count,
        List.length_cons]
      omega

/-- Pass A keeps the number of blocks. -/
theorem sum_count_passA {es : List Elem} {cur : List Byte} (h : es.length = cur.length) :
    ((passA es cur).map Run.count).sum = cur.length := by
  rw [passA, sum_count_passAScan, List.length_zip, h, Nat.min_self, Nat.zero_add]

theorem sum_count_mergedLit (m : Nat) (v : Byte) : ((mergedLit m v).map Run.count).sum = m := by
  unfold mergedLit
  split_ifs
  · simp [Run.count]
  · have hcount : Run.count ∘ Run.rep v = id := rfl
    rw [List.map_map, hcount, List.map_id, chunks_sum]

theorem sum_count_passBScan (m : Nat) (v : Byte) (rs : List Run) :
    ((passBScan m v rs).map Run.count).sum = m + (rs.map Run.count).sum := by
  induction rs generalizing m v with
  | nil => simp [passBScan, sum_count_mergedLit]
  | cons r rs ih =>
    cases r with
    | lit b =>
      rw [passBScan]
      split_ifs
      · simp only [ih, List.map_cons, List.sum_cons, Run.count]; omega
      · simp only [List.map_append, List.sum_append, sum_count_mergedLit, ih, List.map_cons, List.sum_cons, Run.count]
    | skip c | rep w c =>
      simp only [passBScan, List.map_append, List.map_cons, List.sum_append, List.sum_cons, sum_count_mergedLit, ih, Nat.zero_add]

/-- Pass B keeps the number of blocks. -/
theorem sum_count_passB (rs : List Run) : ((passB rs).map Run.count).sum = (rs.map Run.count).sum := by
  rw [passB, sum_count_passBScan, Nat.zero_add]

theorem take_litPrefix_append_drop (n : Nat) (rs : List Run) :
    ((litPrefix rs).take n).map .lit ++ rs.drop ((litPrefix rs).take n).length = rs := by
  induction rs generalizing n with
  | nil => simp [litPrefix]
  | cons r rs ih =>
    cases r with
    | lit b =>
      cases n with
      | zero => rfl
      | succ n => simpa [litPrefix] using ih n
    | skip c | rep v c => simp [litPrefix]

/-- The Literal-run is taken off the head of the runs (41_opcode_encoder.md R131). -/
theorem literalRun_append_drop (rs : List Run) : (literalRun rs).map .lit ++ rs.drop (literalRun rs).length = rs :=
  take_litPrefix_append_drop Config.longMax rs

theorem sum_count_map_lit (d : List Byte) : ((d.map Run.lit).map Run.count).sum = d.length := by
  induction d with
  | nil => rfl
  | cons b d ih => rw [List.map_cons, List.map_cons, List.sum_cons, ih, List.length_cons, Run.count, Nat.add_comm]

/-- A Literal-run takes as many blocks off the runs as it has bytes. -/
theorem sum_count_drop_literalRun (rs : List Run) :
    (literalRun rs).length + ((rs.drop (literalRun rs).length).map Run.count).sum = (rs.map Run.count).sum := by
  have h := congrArg (fun l => (l.map Run.count).sum) (literalRun_append_drop rs)
  simpa only [List.map_append, List.sum_append, sum_count_map_lit] using h

theorem sum_count_shortSkip {rs after : List Run} {s : Nat} (h : shortSkip rs = some (s, after)) :
    (rs.map Run.count).sum = s + (after.map Run.count).sum := by
  obtain ⟨-, rfl⟩ := shortSkip_some h
  rfl

theorem adv_selectRep (v : Byte) (n : Nat) (rest : List Run) :
    (selectRep v n rest).1.adv + ((selectRep v n rest).2.map Run.count).sum = n + (rest.map Run.count).sum := by
  unfold selectRep
  split_ifs
  · cases hskip : shortSkip rest with
    | none => rfl
    | some p =>
      rw [sum_count_shortSkip hskip]
      simp only [Instr.adv, Instr.put, Instr.skip, Instr.skipBefore, Instr.skipAfter]
      omega
  · rfl

theorem adv_selectSkip (s : Nat) (rest : List Run) :
    (selectSkip s rest).1.adv + ((selectSkip s rest).2.map Run.count).sum = s + (rest.map Run.count).sum := by
  have hlit := sum_count_drop_literalRun rest
  unfold selectSkip
  split_ifs <;>
    simp only [Instr.adv, Instr.put, Instr.skip, Instr.skipBefore, Instr.skipAfter, List.length_nil] <;> omega

theorem adv_selectLit (rs : List Run) :
    (selectLit rs).1.adv + ((selectLit rs).2.map Run.count).sum = (rs.map Run.count).sum := by
  have hlit := sum_count_drop_literalRun rs
  unfold selectLit
  split_ifs
  · cases hskip : shortSkip (rs.drop (literalRun rs).length) with
    | none => exact hlit
    | some p =>
      rw [sum_count_shortSkip hskip] at hlit
      simp only [Instr.adv, Instr.put, Instr.skip, Instr.skipBefore, Instr.skipAfter]
      omega
  · exact hlit

/-- Each position of the walk advances the blocks of the runs it consumes. -/
theorem adv_selectOne (r : Run) (rest : List Run) :
    (selectOne r rest).1.adv + ((selectOne r rest).2.map Run.count).sum = r.count + (rest.map Run.count).sum := by
  cases r with
  | rep v n => exact adv_selectRep v n rest
  | skip s => exact adv_selectSkip s rest
  | lit b => exact adv_selectLit (.lit b :: rest)

/-- The walk keeps the number of blocks. -/
theorem advSum_select (rs : List Run) : advSum (select rs) = (rs.map Run.count).sum := by
  induction h : rs.length using Nat.strong_induction_on generalizing rs with
  | _ n ih =>
    cases rs with
    | nil => rfl
    | cons r rest =>
      have hlen := selectOne_length r rest
      have hlt : (selectOne r rest).2.length < n := by rw [← h, List.length_cons]; omega
      rw [select_cons, advSum_cons, ih _ hlt _ rfl, adv_selectOne, List.map_cons, List.sum_cons]

/-- The instructions of a raster advance as many blocks as it has. -/
theorem advSum_frameInstrs {es : List Elem} {raster : List Byte} (h : es.length = raster.length) :
    advSum (frameInstrs es raster) = raster.length := by
  rw [frameInstrs, advSum_select, sum_count_passB, sum_count_passA h]

/-! ### What EncodeFrame can answer (41_opcode_encoder.md R144 to R146) -/

theorem encode_ne_nil (i : Instr) : encode i ≠ [] := by
  cases i <;> simp [encode]

theorem encodeAll_ne_nil {is : List Instr} (h : is ≠ []) : encodeAll is ≠ [] := by
  cases is with
  | nil => exact absurd rfl h
  | cons i is => rw [encodeAll_cons]; exact List.append_ne_nil_of_left_ne_nil (encode_ne_nil i) _

/-- The checks after selection: a fault, or the commit of instructions that advance exactly FB blocks. -/
theorem padAndCommit_cases (is : List Instr) (raster : List Byte) (s : State) :
    (∃ n, s.padAndCommit is raster = s.raiseAccounting raster n) ∨
    (advSum is ≤ s.cfg.fb ∧ ∃ js, advSum js = s.cfg.fb ∧ s.padAndCommit is raster = s.commit (encodeAll js) raster) := by
  unfold State.padAndCommit
  split_ifs with hover hsum
  · exact .inl ⟨_, rfl⟩
  · exact .inl ⟨_, rfl⟩
  · exact .inr ⟨Nat.not_lt.mp hover, _, (advSum_append _ _).trans (not_not.mp hsum), rfl⟩

/-- No effect, a fault, or the commit of a raster that fits as instructions that advance exactly FB blocks. -/
theorem encodeFrame_cases (raster : List Byte) (s : State) :
    s.encodeFrame raster = s ∨
    (∃ k info, k ≠ .none ∧ s.encodeFrame raster = s.raiseEnc k info) ∨
    (raster.length ≤ s.cfg.fb ∧ ∃ is, advSum is = s.cfg.fb ∧ s.encodeFrame raster = s.commit (encodeAll is) raster) := by
  unfold State.encodeFrame
  split
  · exact .inl rfl
  · cases hes : classify s raster with
    | error info => exact .inr (.inl ⟨.lengthMismatch, info, by decide, rfl⟩)
    | ok es =>
      obtain ⟨n, h⟩ | ⟨hle, h⟩ := padAndCommit_cases (frameInstrs es raster) raster s
      · exact .inr (.inl ⟨.blockAccountingMismatch, _, by decide, h⟩)
      · rw [advSum_frameInstrs (classify_length hes)] at hle
        exact .inr (.inr ⟨hle, h⟩)

/-! ### The invariant after a Reset (70_reset_and_hazards.md R240, R241) -/

theorem fb_pos_of_legal {cfg : Cfg} (h : cfg.legal) : 0 < cfg.fb := by
  obtain ⟨hw, hh, hmod⟩ := h
  have hpos : 0 < cfg.w * cfg.h := Nat.mul_pos hw hh
  unfold Cfg.fb
  omega

theorem afterReset_inv {cfg : Cfg} (k : Nat) (q : List Transaction) (h : cfg.legal) : (State.afterReset cfg k q).Inv where
  reset_done := rfl
  legal := h
  cur_le := Nat.le_refl 0
  blk_lt := fb_pos_of_legal h
  dframes_le := Nat.le_refl 0
  eframes_le := Nat.le_refl 0
  prev_le := Nat.zero_le _
  prev_iff := by simp
  efault_iff := by simp
  efinfo_iff := by simp
  dfault_iff := by simp
  dfinfo_iff := by simp
  done_end := by simp
  dm_wf := List.Pairwise.nil
  dm_in := by simp
  trace_covers := rfl

/-- Settles O32: every field of the reset state meets its clause. -/
theorem resetMeetsInvariant : Obligations.ResetMeetsInvariant :=
  ⟨fun _ k q h => afterReset_inv k q h, afterReset_inv 0 [] (by decide)⟩

/-! ### Each operation keeps the invariant -/

section InvariantKept

variable {s t : State}

/-- The host's queue is no part of the invariant (log 3). -/
theorem State.Inv.withHostQueue (h : s.Inv) (q : List Transaction) : State.Inv { s with hostQueue := q } := { h with }

theorem State.Inv.raiseEnc (h : s.Inv) {k : EFault} (hk : k ≠ .none) (info : EInfo) : (s.raiseEnc k info).Inv :=
  { h with efault_iff := by simp [hk], efinfo_iff := by simp [hk] }

theorem State.Inv.underflowState (h : s.Inv) (k : Nat) : (underflowState s k).Inv :=
  { h with
    dfault_iff := by simp [Machine.underflowState]
    dfinfo_iff := by simp [Machine.underflowState]
    done_end := by simp [Machine.underflowState] }

theorem State.Inv.overrunState (h : s.Inv) (n : Nat) : (overrunState s n).Inv :=
  { h with
    dfault_iff := by simp [Machine.overrunState]
    dfinfo_iff := by simp [Machine.overrunState]
    done_end := by simp [Machine.overrunState] }

/-- A committed raster is inside the frame, and its bytes keep EFRAMES below |OUT| (10_state.md R30, 41_opcode_encoder.md R145). -/
theorem State.Inv.commit (h : s.Inv) {bytes raster : List Byte} (hr : raster.length ≤ s.cfg.fb) (hb : bytes ≠ []) :
    (s.commit bytes raster).Inv :=
  { h with
    eframes_le := by
      have hout := h.eframes_le
      have hpos := List.length_pos_iff.mpr hb
      simp only [commit_eframes, commit_out, List.length_append]
      omega
    prev_le := hr
    prev_iff := by simp }

theorem State.Inv.encodeFrame (h : s.Inv) (raster : List Byte) : (s.encodeFrame raster).Inv := by
  obtain he | ⟨k, info, hk, he⟩ | ⟨hr, is, hsum, he⟩ := encodeFrame_cases raster s <;> rw [he]
  · exact h
  · exact h.raiseEnc hk info
  · have his : is ≠ [] := by
      rintro rfl
      exact (fb_pos_of_legal h.legal).ne hsum
    exact h.commit hr (encodeAll_ne_nil his)

theorem State.Inv.load (h : s.Inv) (stream : List Byte) : (s.load stream).Inv :=
  { h with
    cur_le := Nat.zero_le _
    blk_lt := fb_pos_of_legal h.legal
    dframes_le := Nat.le_refl 0
    dfault_iff := by simp
    dfinfo_iff := by simp
    done_end := by simp
    trace_covers := rfl }

theorem State.Inv.endOfStream (h : s.Inv) (hrun : s.dstate = .run) (hend : s.cur = s.inp.length) : s.endOfStream.Inv := by
  unfold State.endOfStream
  split_ifs with hblk
  · exact { h with
      dfault_iff := by simpa [hrun] using h.dfault_iff
      done_end := fun _ => ⟨hend, hblk⟩ }
  · exact h.underflowState 1

/-- An instruction that completes keeps the invariant: it reads inside IN and, by `Fit`, writes inside DM
(42_opcode_decoder.md R172 to R174). -/
theorem State.Inv.effect (h : s.Inv) {i : Instr} (hrun : s.dstate = .run) (hneed : s.cur + i.byteLength ≤ s.inp.length)
    (hfit : s.blk + i.adv ≤ s.cfg.fb) (hdm : t.dm = writeAll s.dm (putBase i s.blk) i.putBytes)
    (heff : Effect s t i.byteLength i.adv (putBase i s.blk) i.putBytes (instrEvents i s.blk)) : t.Inv := by
  have hcur : t.cur ≤ s.inp.length := heff.cur_eq ▸ hneed
  have hblk : t.blk < s.cfg.fb := by
    have hfb := fb_pos_of_legal h.legal
    rw [heff.blk_eq]
    split <;> omega
  have hframes : t.dframes ≤ t.cur := by
    have hlen := byteLength_pos i
    have hs := h.dframes_le
    rw [heff.dframes_eq, heff.cur_eq]
    split <;> omega
  have hwf : Memory.wf t.dm := hdm ▸ writeAll_wf _ _ h.dm_wf
  have hin : ∀ c ∈ t.dm, c.1 < s.cfg.fb := by
    intro c hc
    rw [hdm] at hc
    obtain hc | ⟨-, hc⟩ := mem_writeAll hc
    · exact h.dm_in c hc
    · rw [putBytes_length, putBase] at hc
      rw [Instr.adv, Instr.skip] at hfit
      omega
  have htrace := heff.trace_covers hfit h.trace_covers
  rw [heff.rest_eq]
  exact { h with
    cur_le := hcur
    blk_lt := hblk
    dframes_le := hframes
    done_end := by simp [hrun]
    dm_wf := hwf
    dm_in := hin
    trace_covers := htrace }

theorem State.Inv.exec (h : s.Inv) {i : Instr} (hrun : s.dstate = .run) (ht : exec i s = .next t) : t.Inv := by
  obtain ⟨k, rfl⟩ | ⟨n, -, rfl⟩ | ⟨hneed, hfit, hdm, heff⟩ := exec_eq_next ht
  · exact h.underflowState k
  · exact h.overrunState n
  · exact h.effect hrun hneed hfit hdm heff

theorem State.Inv.doDecStep (h : s.Inv) (ht : doDecStep s = .next t) : t.Inv := by
  obtain ⟨-, rfl⟩ | ⟨hrun, hend, rfl⟩ | ⟨hrun, -, ht⟩ := doDecStep_eq_next ht
  · exact h
  · exact h.endOfStream hrun hend
  · obtain ⟨i, rest, -, ht⟩ | ⟨k, -, rfl⟩ := runFetched_eq_next ht
    · exact h.exec hrun ht
    · exact h.underflowState k

theorem State.Inv.runTransaction (h : s.Inv) {tr : Transaction} (ht : runTransaction tr s = .next t) : t.Inv := by
  cases tr with
  | reset cfg =>
    obtain ⟨hlegal, rfl⟩ := doReset_eq_next ht
    exact afterReset_inv _ _ hlegal
  | encodeFrame raster =>
    obtain rfl := doEncodeFrame_eq_next ht
    exact h.encodeFrame raster
  | decLoad stream =>
    obtain rfl := doDecLoad_eq_next ht
    exact h.load stream
  | decStep => exact h.doDecStep ht

end InvariantKept

/-- Settles O33: the step is a transaction, and each of the four keeps the invariant. -/
theorem stepKeepsInvariant : Obligations.StepKeepsInvariant := by
  intro s t h ht
  cases hq : s.hostQueue with
  | nil =>
    rw [step_of_queue_nil hq] at ht
    exact h.runTransaction ht
  | cons tr ts =>
    rw [step_of_queue_cons hq] at ht
    exact (h.withHostQueue ts).runTransaction ht

end Sys2Proof.Machine

namespace Sys2Proof

/-! ### Well-formed counts and the bits that hold them (30_encoding.md R80, R83) -/

@[simp] theorem Instr.wf_longSkip {n : Nat} : (longSkip n).wf = true ↔ 1 ≤ n ∧ n ≤ 256 := by
  simp [wf, Config.longMax]

@[simp] theorem Instr.wf_skipCopy {s : Nat} {d : List Byte} :
    (skipCopy s d).wf = true ↔ s ≤ 7 ∧ d.length ≤ 7 ∧ (s ≠ 0 ∨ d.length ≠ 0) := by
  simp [wf, Config.shortMax, and_assoc]

@[simp] theorem Instr.wf_longCopy {d : List Byte} : (longCopy d).wf = true ↔ 1 ≤ d.length ∧ d.length ≤ 256 := by
  simp [wf, Config.longMax]

@[simp] theorem Instr.wf_copySkip {d : List Byte} {s : Nat} :
    (copySkip d s).wf = true ↔ d.length ≤ 7 ∧ s ≤ 7 ∧ (d.length ≠ 0 ∨ s ≠ 0) := by
  simp [wf, Config.shortMax, and_assoc]

@[simp] theorem Instr.wf_repeatByte {n : Nat} {v : Byte} : (repeatByte n v).wf = true ↔ 1 ≤ n ∧ n ≤ 64 := by
  simp [wf, Config.repeatChunk]

@[simp] theorem Instr.wf_repeatSkip {n s : Nat} {v : Byte} : (repeatSkip n s v).wf = true ↔ n ≤ 7 ∧ s ≤ 7 := by
  simp [wf, Config.shortMax]

@[simp] theorem Instr.wf_repeat7 {n : Nat} {v : Byte} : (repeat7 n v).wf = true ↔ 1 ≤ n ∧ n ≤ 128 := by
  simp [wf]

/-- A count of at most 7 is the value of a 3-bit field. -/
theorem exists_field_of_le_seven {n : Nat} (h : n ≤ 7) : ∃ b : BitVec 3, b.toNat = n :=
  ⟨BitVec.ofNatLT n (Nat.lt_succ_of_le h), rfl⟩

theorem field_le_seven (b : BitVec 3) : b.toNat ≤ 7 := Nat.le_of_lt_succ b.isLt

/-- The excluded opcode bytes 0x00 and 0x40 are those with both fields 0 (30_encoding.md R79). -/
theorem fields_ne_zero_iff {a b : BitVec 3} : a.toNat ≠ 0 ∨ b.toNat ≠ 0 ↔ a ≠ 0 ∨ b ≠ 0 :=
  or_congr (BitVec.toNat_ne_iff_ne (y := 0)) (BitVec.toNat_ne_iff_ne (y := 0))

/-- A biased field holds every count from 1 to the number of its values. -/
theorem toNat_biased {w n : Nat} (h1 : 1 ≤ n) (h2 : n ≤ 2 ^ w) : (BitVec.ofNat w (n - 1)).toNat + 1 = n := by
  rw [BitVec.toNat_ofNat, Nat.mod_eq_of_lt (by omega), Nat.sub_add_cancel h1]

theorem packCount_toNat_succ (n : Byte) : packCount (n.toNat + 1) = n := by
  rw [packCount, Nat.add_sub_cancel, BitVec.ofNat_toNat, BitVec.setWidth_eq]

/-! ### What each opcode form reads (42_opcode_decoder.md R175 to R181) -/

section Forms

variable (l : Layout) (rest : List Byte)

theorem decode_longSkip : decode l (0x00 :: rest) = takeByte rest fun n => .longSkip (n.toNat + 1) := by
  simp only [decode, decodeOpcode_longSkip]

theorem decode_skipCopy {s c : BitVec 3} (h : s ≠ 0 ∨ c ≠ 0) :
    decode l (packShort 0b00 s.toNat c.toNat :: rest) = takeData 1 c.toNat rest (.skipCopy s.toNat) := by
  simp only [decode, decodeOpcode_skipCopy l s c h]

theorem decode_longCopy : decode l (0x40 :: rest) = takeLongCopy rest := by
  simp only [decode, decodeOpcode_longCopy]

theorem decode_copySkip {c s : BitVec 3} (h : c ≠ 0 ∨ s ≠ 0) :
    decode l (packShort 0b01 c.toNat s.toNat :: rest) = takeData 1 c.toNat rest fun d => .copySkip d s.toNat := by
  simp only [decode, decodeOpcode_copySkip l c s h]

theorem decode_repeat (r : BitVec 6) :
    decode .sixBit ((0b10#2 ++ r) :: rest) = takeByte rest fun v => .repeatByte (r.toNat + 1) v := by
  simp only [decode, decodeOpcode_repeat]

theorem decode_repeatSkip (r s : BitVec 3) :
    decode .sixBit (packShort 0b11 r.toNat s.toNat :: rest) = takeByte rest fun v => .repeatSkip r.toNat s.toNat v := by
  simp only [decode, decodeOpcode_repeatSkip]

theorem decode_repeat7 (r : BitVec 7) :
    decode .sevenBit ((0b1#1 ++ r) :: rest) = takeByte rest fun v => .repeat7 (r.toNat + 1) v := by
  simp only [decode, decodeOpcode_repeat7]

end Forms

theorem takeByte_cons (v : Byte) (rest : List Byte) (mk : Byte → Instr) : takeByte (v :: rest) mk = .ok (mk v, rest) := rfl

theorem takeLongCopy_cons (n : Byte) (rest : List Byte) :
    takeLongCopy (n :: rest) = takeData 2 (n.toNat + 1) rest .longCopy := rfl

/-- The data bytes are read back, and what follows them is left. -/
theorem takeData_append (used : Nat) (d rest : List Byte) (mk : List Byte → Instr) :
    takeData used d.length (d ++ rest) mk = .ok (mk d, rest) := by
  rw [takeData_ok (by simp), List.take_left, List.drop_left]

/-! ### Decoding undoes packing (30_encoding.md R83) -/

section DecodeEncode

variable (l : Layout) (rest : List Byte)

theorem decode_encode_longSkip {n : Nat} (h : (Instr.longSkip n).wf = true) :
    decode l (encode (.longSkip n) ++ rest) = .ok (.longSkip n, rest) := by
  obtain ⟨h1, h2⟩ := Instr.wf_longSkip.mp h
  simp only [encode, List.cons_append, List.nil_append, decode_longSkip, takeByte_cons, packCount_toNat h1 h2]

theorem decode_encode_skipCopy {s : Nat} {d : List Byte} (h : (Instr.skipCopy s d).wf = true) :
    decode l (encode (.skipCopy s d) ++ rest) = .ok (.skipCopy s d, rest) := by
  obtain ⟨hs, hd, hne⟩ := Instr.wf_skipCopy.mp h
  obtain ⟨s, rfl⟩ := exists_field_of_le_seven hs
  obtain ⟨c, hc⟩ := exists_field_of_le_seven hd
  rw [← hc, fields_ne_zero_iff] at hne
  rw [encode, List.cons_append, ← hc, decode_skipCopy l _ hne, hc, takeData_append]

theorem decode_encode_longCopy {d : List Byte} (h : (Instr.longCopy d).wf = true) :
    decode l (encode (.longCopy d) ++ rest) = .ok (.longCopy d, rest) := by
  obtain ⟨h1, h2⟩ := Instr.wf_longCopy.mp h
  rw [encode, List.cons_append, List.cons_append, decode_longCopy, takeLongCopy_cons, packCount_toNat h1 h2, takeData_append]

theorem decode_encode_copySkip {d : List Byte} {s : Nat} (h : (Instr.copySkip d s).wf = true) :
    decode l (encode (.copySkip d s) ++ rest) = .ok (.copySkip d s, rest) := by
  obtain ⟨hd, hs, hne⟩ := Instr.wf_copySkip.mp h
  obtain ⟨s, rfl⟩ := exists_field_of_le_seven hs
  obtain ⟨c, hc⟩ := exists_field_of_le_seven hd
  rw [← hc, fields_ne_zero_iff] at hne
  rw [encode, List.cons_append, ← hc, decode_copySkip l _ hne, hc, takeData_append]

theorem decode_encode_repeatByte {n : Nat} {v : Byte} (h : (Instr.repeatByte n v).wf = true) :
    decode .sixBit (encode (.repeatByte n v) ++ rest) = .ok (.repeatByte n v, rest) := by
  obtain ⟨h1, h2⟩ := Instr.wf_repeatByte.mp h
  simp only [encode, List.cons_append, List.nil_append, decode_repeat, takeByte_cons, toNat_biased (w := 6) h1 h2]

theorem decode_encode_repeatSkip {n s : Nat} {v : Byte} (h : (Instr.repeatSkip n s v).wf = true) :
    decode .sixBit (encode (.repeatSkip n s v) ++ rest) = .ok (.repeatSkip n s v, rest) := by
  obtain ⟨hn, hs⟩ := Instr.wf_repeatSkip.mp h
  obtain ⟨n, rfl⟩ := exists_field_of_le_seven hn
  obtain ⟨s, rfl⟩ := exists_field_of_le_seven hs
  simp only [encode, List.cons_append, List.nil_append, decode_repeatSkip, takeByte_cons]

theorem decode_encode_repeat7 {n : Nat} {v : Byte} (h : (Instr.repeat7 n v).wf = true) :
    decode .sevenBit (encode (.repeat7 n v) ++ rest) = .ok (.repeat7 n v, rest) := by
  obtain ⟨h1, h2⟩ := Instr.wf_repeat7.mp h
  simp only [encode, List.cons_append, List.nil_append, decode_repeat7, takeByte_cons, toNat_biased (w := 7) h1 h2]

end DecodeEncode

/-- Settles O3, one round trip per instruction; the three Repeat forms have it under their own layout. -/
theorem decodeUndoesEncode : Obligations.DecodeUndoesEncode := by
  intro l i rest hwf hl
  cases i with
  | longSkip n => exact decode_encode_longSkip l rest hwf
  | skipCopy s d => exact decode_encode_skipCopy l rest hwf
  | longCopy d => exact decode_encode_longCopy l rest hwf
  | copySkip d s => exact decode_encode_copySkip l rest hwf
  | repeatByte n v =>
    cases l with
    | sixBit => exact decode_encode_repeatByte rest hwf
    | sevenBit => exact absurd hl Bool.false_ne_true
  | repeatSkip n s v =>
    cases l with
    | sixBit => exact decode_encode_repeatSkip rest hwf
    | sevenBit => exact absurd hl Bool.false_ne_true
  | repeat7 n v =>
    cases l with
    | sixBit => exact absurd hl Bool.false_ne_true
    | sevenBit => exact decode_encode_repeat7 rest hwf

/-! ### What decoding any bytes answers (30_encoding.md R79 to R85) -/

/-- The bytes are the packed bytes of a well-formed instruction that the layout has. -/
structure Spells (l : Layout) (i : Instr) (bytes : List Byte) : Prop where
  encode_eq : encode i = bytes
  wf : i.wf = true
  inLayout : i.inLayout l = true

/-- The answer is right for the bytes: an instruction they begin with, or a need that they do not meet and that no
instruction exceeds. -/
def Faithful (l : Layout) (bytes : List Byte) : Decoded → Prop
  | .ok (i, rest) => ∃ pre, Spells l i pre ∧ bytes = pre ++ rest
  | .error (.truncated need) => bytes.length < need ∧ need ≤ maxLength

theorem takeByte_faithful {l : Layout} {op : Byte} {mk : Byte → Instr} (rest : List Byte)
    (h : ∀ v, Spells l (mk v) [op, v]) : Faithful l (op :: rest) (takeByte rest mk) := by
  cases rest with
  | nil => exact ⟨Nat.lt_succ_self 1, by decide⟩
  | cons v rest => exact ⟨_, h v, rfl⟩

theorem takeData_faithful {l : Layout} {pre : List Byte} {c : Nat} {mk : List Byte → Instr} (rest : List Byte)
    (hc : pre.length + c ≤ maxLength) (h : ∀ d, d.length = c → Spells l (mk d) (pre ++ d)) :
    Faithful l (pre ++ rest) (takeData pre.length c rest mk) := by
  rcases Nat.lt_or_ge rest.length c with hshort | hlen
  · rw [takeData_short hshort]
    exact ⟨by rw [List.length_append]; omega, hc⟩
  · rw [takeData_ok hlen]
    exact ⟨_, h _ (List.length_take_of_le hlen), by rw [List.append_assoc, List.take_append_drop]⟩

section SpellsForms

variable (l : Layout)

theorem spells_longSkip (n : Byte) : Spells l (.longSkip (n.toNat + 1)) [0x00, n] where
  encode_eq := by rw [encode, packCount_toNat_succ]
  wf := Instr.wf_longSkip.mpr ⟨by omega, by omega⟩
  inLayout := rfl

theorem spells_skipCopy {s c : BitVec 3} (h : s ≠ 0 ∨ c ≠ 0) {d : List Byte} (hd : d.length = c.toNat) :
    Spells l (.skipCopy s.toNat d) (packShort 0b00 s.toNat c.toNat :: d) where
  encode_eq := by rw [encode, hd]
  wf := Instr.wf_skipCopy.mpr (hd ▸ ⟨field_le_seven s, field_le_seven c, fields_ne_zero_iff.mpr h⟩)
  inLayout := rfl

theorem spells_longCopy {n : Byte} {d : List Byte} (hd : d.length = n.toNat + 1) : Spells l (.longCopy d) (0x40 :: n :: d) where
  encode_eq := by rw [encode, hd, packCount_toNat_succ]
  wf := Instr.wf_longCopy.mpr ⟨by omega, by omega⟩
  inLayout := rfl

theorem spells_copySkip {c s : BitVec 3} (h : c ≠ 0 ∨ s ≠ 0) {d : List Byte} (hd : d.length = c.toNat) :
    Spells l (.copySkip d s.toNat) (packShort 0b01 c.toNat s.toNat :: d) where
  encode_eq := by rw [encode, hd]
  wf := Instr.wf_copySkip.mpr (hd ▸ ⟨field_le_seven c, field_le_seven s, fields_ne_zero_iff.mpr h⟩)
  inLayout := rfl

theorem spells_repeatByte (r : BitVec 6) (v : Byte) : Spells .sixBit (.repeatByte (r.toNat + 1) v) [0b10#2 ++ r, v] where
  encode_eq := by rw [encode, Nat.add_sub_cancel, BitVec.ofNat_toNat, BitVec.setWidth_eq]
  wf := Instr.wf_repeatByte.mpr ⟨by omega, by omega⟩
  inLayout := rfl

theorem spells_repeatSkip (r s : BitVec 3) (v : Byte) :
    Spells .sixBit (.repeatSkip r.toNat s.toNat v) [packShort 0b11 r.toNat s.toNat, v] where
  encode_eq := rfl
  wf := Instr.wf_repeatSkip.mpr ⟨field_le_seven r, field_le_seven s⟩
  inLayout := rfl

theorem spells_repeat7 (r : BitVec 7) (v : Byte) : Spells .sevenBit (.repeat7 (r.toNat + 1) v) [0b1#1 ++ r, v] where
  encode_eq := by rw [encode, Nat.add_sub_cancel, BitVec.ofNat_toNat, BitVec.setWidth_eq]
  wf := Instr.wf_repeat7.mpr ⟨by omega, by omega⟩
  inLayout := rfl

end SpellsForms

theorem takeLongCopy_faithful (l : Layout) (rest : List Byte) : Faithful l (0x40 :: rest) (takeLongCopy rest) := by
  cases rest with
  | nil => exact ⟨Nat.lt_succ_self 1, by decide⟩
  | cons n rest =>
    have hneed : 2 + (n.toNat + 1) ≤ maxLength := by unfold maxLength; omega
    exact takeData_faithful (pre := [0x40, n]) rest hneed fun _ hd => spells_longCopy l hd

/-- A short form needs its opcode byte and at most 7 data bytes. -/
theorem shortNeed_le (c : BitVec 3) : 1 + c.toNat ≤ maxLength := by
  have := field_le_seven c
  unfold maxLength
  omega

/-- Decoding is right on all bytes: the opcode byte is of one of the seven forms, and each form reads its operands. -/
theorem decode_faithful (l : Layout) (bytes : List Byte) : Faithful l bytes (decode l bytes) := by
  cases bytes with
  | nil => exact ⟨Nat.zero_lt_one, by decide⟩
  | cons op rest =>
    obtain ⟨s, c, hne, rfl, -⟩ | ⟨rfl, -⟩ | ⟨c, s, hne, rfl, -⟩ | ⟨rfl, -⟩ |
      ⟨r, rfl, rfl, -⟩ | ⟨r, s, rfl, rfl, -⟩ | ⟨r, rfl, rfl, -⟩ := decodeOpcode_cases l op
    · rw [decode_skipCopy l rest hne]
      exact takeData_faithful (pre := [_]) rest (shortNeed_le c) fun _ => spells_skipCopy l hne
    · rw [decode_longSkip]
      exact takeByte_faithful rest (spells_longSkip l)
    · rw [decode_copySkip l rest hne]
      exact takeData_faithful (pre := [_]) rest (shortNeed_le c) fun _ => spells_copySkip l hne
    · rw [decode_longCopy]
      exact takeLongCopy_faithful l rest
    · rw [decode_repeat]
      exact takeByte_faithful rest (spells_repeatByte r)
    · rw [decode_repeatSkip]
      exact takeByte_faithful rest (spells_repeatSkip r s)
    · rw [decode_repeat7]
      exact takeByte_faithful rest (spells_repeat7 r)

/-- Settles O4: the bytes of a faithful answer are the packed bytes of its instruction and the rest. -/
theorem encodeUndoesDecode : Obligations.EncodeUndoesDecode := by
  intro l bytes rest i h
  have hfaithful := decode_faithful l bytes
  rw [h] at hfaithful
  obtain ⟨pre, ⟨rfl, hwf, hl⟩, hbytes⟩ := hfaithful
  exact ⟨hbytes, hwf, hl⟩

/-! ### The opcode table (30_encoding.md R79, R85) -/

/-- Exactly one row of the table applies to an opcode byte, the row of its kind. -/
theorem opcodeTable_applies (l : Layout) (b : Byte) :
    (opcodeTable.filter fun r => r.applies l b).map OpcodeRow.mnemonic = [(decodeOpcode l b).mnemonic] := by
  cases l with
  | sixBit => revert b; decide
  | sevenBit => revert b; decide

theorem decode_truncated {l : Layout} {bytes : List Byte} {k : Nat} (h : decode l bytes = .error (.truncated k)) :
    bytes.length < k ∧ k ≤ maxLength := by
  have hfaithful := decode_faithful l bytes
  rwa [h] at hfaithful

theorem decode_ok_of_maxLength_le {l : Layout} {bytes : List Byte} (h : maxLength ≤ bytes.length) :
    ∃ i rest, decode l bytes = .ok (i, rest) := by
  match hd : decode l bytes with
  | .ok (i, rest) => exact ⟨i, rest, rfl⟩
  | .error (.truncated k) =>
    obtain ⟨hlt, hle⟩ := decode_truncated hd
    exact absurd (hlt.trans_le hle) h.not_gt

/-- Settles O2: the table is checked on every opcode byte, and the needs are those of a faithful answer. -/
theorem everyOpcodeByteDecodes : Obligations.EveryOpcodeByteDecodes :=
  ⟨opcodeTable_applies, fun _ _ _ => decode_truncated, fun _ _ => decode_ok_of_maxLength_le⟩

/-- Settles O1: each word runs through the decoder. -/
theorem specWordsDecode : Obligations.SpecWordsDecode := by
  refine ⟨fun l => ?_, fun l => ?_, fun l => ?_, fun l => ?_, rfl, rfl, rfl⟩ <;> cases l <;> rfl

end Sys2Proof

namespace Sys2Proof.Machine

/-! ### Classification (40_delta_and_collapse.md R100, R101) -/

theorem classify_first {s : State} (h : s.prevValid = false) (cur : List Byte) : classify s cur = .ok (cur.map .lit) :=
  if_pos h

theorem classify_lengthMismatch {s : State} {cur : List Byte} (hv : s.prevValid = true) (hl : s.prev.length ≠ cur.length) :
    classify s cur = .error { frame := s.eframes, prevLen := s.prev.length, curLen := cur.length, blocks := none } := by
  rw [classify, if_neg (by simp [hv]), if_pos hl]

theorem classify_against {s : State} {cur : List Byte} (hv : s.prevValid = true) (hl : s.prev.length = cur.length) :
    classify s cur = .ok (classifyAgainst s.prev cur) := by
  rw [classify, if_neg (by simp [hv]), if_neg (not_not.mpr hl)]

theorem classifyAgainst_eq_zipWith (prev cur : List Byte) :
    classifyAgainst prev cur = List.zipWith (fun p c => if p = c then .skip else .lit c) prev cur := by
  induction prev generalizing cur with
  | nil => rfl
  | cons p prev ih =>
    cases cur with
    | nil => rfl
    | cons c cur => rw [classifyAgainst, List.zipWith_cons_cons, ih]

/-- Each element is decided by the two bytes at its own position alone. -/
theorem classifyAgainst_getElem? {prev cur : List Byte} {i : Nat} (hl : prev.length = cur.length) (hi : i < cur.length) :
    (classifyAgainst prev cur)[i]? = some (if prev.getD i 0 = cur.getD i 0 then .skip else .lit (cur.getD i 0)) := by
  have hp : i < prev.length := hl ▸ hi
  rw [classifyAgainst_eq_zipWith, List.getElem?_zipWith_eq_some]
  exact ⟨prev[i], cur[i], List.getElem?_eq_getElem hp, List.getElem?_eq_getElem hi, by simp [hp, hi]⟩

/-- Settles O36: the three branches of Classify, the last one position by position. -/
theorem classifyComparesByteForByte : Obligations.ClassifyComparesByteForByte := fun _ cur =>
  ⟨fun hv => classify_first hv cur, classify_lengthMismatch, fun hv hl =>
    ⟨_, classify_against hv hl, classifyAgainst_length hl, fun _ hi => classifyAgainst_getElem? hl hi⟩⟩

/-! ### Pass A (40_delta_and_collapse.md R102 to R105) -/

theorem passA_replicate_skip (cur : List Byte) :
    passA (List.replicate cur.length .skip) cur = mergedSkip cur.length (cur.getLastD 0) := by
  have hzip : (List.replicate cur.length Elem.skip).zip cur = cur.map fun c => (.skip, c) := by
    induction cur with
    | nil => rfl
    | cons c cur ih => rw [List.length_cons, List.replicate_succ, List.zip_cons_cons, ih, List.map_cons]
  rw [passA, hzip, passAScan_skips, Nat.zero_add]

theorem mergedSkip_eq_chunked {m : Nat} (h : m ≠ 1) (b : Byte) : mergedSkip m b = chunked .skip 256 m := by
  rw [mergedSkip, if_neg h, chunked_eq]

theorem passA_lit {e₁ : List Elem} {c₁ : List Byte} (h : e₁.length = c₁.length) (e₂ : List Elem) (c₂ : List Byte) (b x : Byte) :
    passA (e₁ ++ .lit b :: e₂) (c₁ ++ x :: c₂) = passA e₁ c₁ ++ .lit b :: passA e₂ c₂ := by
  rw [passA, List.zip_append h, List.zip_cons_cons, passAScan_lit, passA, passA]

/-- Settles O37: a group of Skips is scanned into one merged run, and a literal cuts the scan in two. -/
theorem passAMergesSkipGroups : Obligations.PassAMergesSkipGroups := by
  refine ⟨fun cur h => ?_, fun b => ?_, rfl, fun e₁ e₂ c₁ c₂ b x h _ => passA_lit h e₂ c₂ b x⟩
  · rw [passA_replicate_skip, mergedSkip_eq_chunked (by omega)]
  · exact passA_replicate_skip [b]

/-! ### Pass B (40_delta_and_collapse.md R106 to R109) -/

theorem passB_replicate_lit (v : Byte) (m : Nat) : passB (List.replicate m (.lit v)) = mergedLit m v := by
  rw [passB, passBScan_zero 0 v, passBScan_replicate, Nat.zero_add]

theorem mergedLit_of_le_two {m : Nat} (h : m ≤ 2) (v : Byte) : mergedLit m v = List.replicate m (.lit v) :=
  if_pos (Nat.lt_succ_of_le h)

theorem mergedLit_eq_chunked {m : Nat} (h : 3 ≤ m) (v : Byte) : mergedLit m v = chunked (.rep v) 64 m := by
  rw [mergedLit, if_neg (Nat.not_lt.mpr h), chunked_eq]

/-- Settles O38: a group of equal literals is scanned into one merged group; another byte and a Skip run end the group. -/
theorem passBMergesLiteralGroups : Obligations.PassBMergesLiteralGroups := by
  refine ⟨fun v m h => ?_, fun v m h => ?_, fun a₁ a₂ u v h => passBScan_change 0 0 u v a₁ a₂ h, passBScan_skip 0 0⟩
  · rw [passB_replicate_lit, mergedLit_of_le_two h]
  · rw [passB_replicate_lit, mergedLit_eq_chunked h]

/-! ### The positions of the walk (41_opcode_encoder.md R130) -/

theorem shortSkip_suffix {rs after : List Run} {s : Nat} (h : shortSkip rs = some (s, after)) : after <:+ rs := by
  obtain ⟨-, rfl⟩ := shortSkip_some h
  exact List.suffix_cons _ _

theorem selectRep_suffix (v : Byte) (n : Nat) (rest : List Run) : (selectRep v n rest).2 <:+ rest := by
  unfold selectRep
  split_ifs
  · cases hskip : shortSkip rest with
    | none => exact List.suffix_rfl
    | some p => exact shortSkip_suffix hskip
  · exact List.suffix_rfl

theorem selectSkip_suffix (s : Nat) (rest : List Run) : (selectSkip s rest).2 <:+ rest := by
  unfold selectSkip
  split_ifs
  · exact List.drop_suffix _ _
  · exact List.suffix_rfl
  · exact List.suffix_rfl

/-- The Literal-run of a sequence that starts with a literal is not empty, so it takes at least the head. -/
theorem selectLit_suffix (b : Byte) (rest : List Run) : (selectLit (.lit b :: rest)).2 <:+ rest := by
  have hdrop : (Run.lit b :: rest).drop (literalRun (.lit b :: rest)).length <:+ rest := by
    simp only [literalRun, litPrefix, List.take_succ_cons, List.length_cons, List.drop_succ_cons]
    exact List.drop_suffix _ _
  unfold selectLit
  split_ifs
  · cases hskip : shortSkip ((Run.lit b :: rest).drop (literalRun (.lit b :: rest)).length) with
    | none => exact hdrop
    | some p => exact (shortSkip_suffix hskip).trans hdrop
  · exact hdrop

theorem selectOne_suffix (r : Run) (rest : List Run) : (selectOne r rest).2 <:+ rest := by
  cases r with
  | rep v n => exact selectRep_suffix v n rest
  | skip s => exact selectSkip_suffix s rest
  | lit b => exact selectLit_suffix b rest

/-- Every instruction the walk emits is the one its rule picks at some suffix of the runs. -/
theorem exists_suffix_of_mem_select {rs : List Run} {i : Instr} (hi : i ∈ select rs) :
    ∃ r rest, r :: rest <:+ rs ∧ i = (selectOne r rest).1 := by
  induction h : rs.length using Nat.strong_induction_on generalizing rs with
  | _ n ih =>
    cases rs with
    | nil => simp [select_nil] at hi
    | cons r rest =>
      have hsuffix := selectOne_suffix r rest
      rw [select_cons, List.mem_cons] at hi
      obtain rfl | hi := hi
      · exact ⟨r, rest, List.suffix_rfl, rfl⟩
      · have hlt : (selectOne r rest).2.length < n := h ▸ Nat.lt_succ_of_le hsuffix.length_le
        obtain ⟨r', rest', hpos, heq⟩ := ih _ hlt hi rfl
        exact ⟨r', rest', hpos.trans (hsuffix.trans (List.suffix_cons r rest)), heq⟩

/-! ### Runs without a Skip run (40_delta_and_collapse.md R110(c), 41_opcode_encoder.md R147(c)) -/

/-- Pass A passes a fully literal sequence through. -/
theorem passA_map_lit (cur : List Byte) : passA (cur.map .lit) cur = cur.map .lit := by
  induction cur with
  | nil => rfl
  | cons c cur ih =>
    have hhead : passA (.lit c :: cur.map .lit) (c :: cur) = .lit c :: passA (cur.map .lit) cur :=
      passA_lit (e₁ := []) (c₁ := []) rfl (cur.map .lit) cur c c
    rw [List.map_cons, List.map_cons, hhead, ih]

theorem skip_notMem_mergedLit (m : Nat) (v : Byte) (c : Nat) : .skip c ∉ mergedLit m v := by
  unfold mergedLit
  split_ifs
  · simp
  · simp

theorem skip_mem_passBScan (m : Nat) (v : Byte) (c : Nat) (rs : List Run) : .skip c ∈ passBScan m v rs ↔ .skip c ∈ rs := by
  induction rs generalizing m v with
  | nil => simp [passBScan, skip_notMem_mergedLit]
  | cons r rs ih =>
    cases r with
    | lit b =>
      rw [passBScan]
      split_ifs
      · simp [ih]
      · simp [ih, skip_notMem_mergedLit]
    | skip d | rep w d => simp [passBScan, ih, skip_notMem_mergedLit]

/-- Pass B neither makes nor drops a Skip run. -/
theorem skip_mem_passB {c : Nat} {rs : List Run} : .skip c ∈ passB rs ↔ .skip c ∈ rs := skip_mem_passBScan 0 0 c rs

/-- The runs of a first frame hold no Skip run. -/
theorem skip_notMem_first_frame (cur : List Byte) (c : Nat) : .skip c ∉ passB (passA (cur.map .lit) cur) := by
  rw [skip_mem_passB, passA_map_lit]
  simp

theorem shortSkip_of_skip_notMem {rs : List Run} (h : ∀ c, .skip c ∉ rs) : shortSkip rs = none := by
  cases hskip : shortSkip rs with
  | none => rfl
  | some p =>
    obtain ⟨-, rfl⟩ := shortSkip_some hskip
    exact absurd List.mem_cons_self (h p.1)

/-- Where no Skip run follows, a Repeat run and a Literal-run absorb none, and no position is a Skip run's. -/
theorem selectOne_not_skipClass {r : Run} {rest : List Run} (h : ∀ c, .skip c ∉ r :: rest) :
    (selectOne r rest).1.skipClass = false := by
  cases r with
  | skip s => exact absurd List.mem_cons_self (h s)
  | rep v n =>
    have hnone : shortSkip rest = none := shortSkip_of_skip_notMem fun c hc => h c (List.mem_cons_of_mem _ hc)
    rw [selectOne, selectRep, hnone]
    split_ifs <;> rfl
  | lit b =>
    have hnone : shortSkip ((Run.lit b :: rest).drop (literalRun (.lit b :: rest)).length) = none :=
      shortSkip_of_skip_notMem fun c hc => h c (List.mem_of_mem_drop hc)
    rw [selectOne, selectLit, hnone]
    split_ifs <;> rfl

theorem select_not_skipClass {rs : List Run} (h : ∀ c, .skip c ∉ rs) {i : Instr} (hi : i ∈ select rs) : i.skipClass = false := by
  obtain ⟨r, rest, hpos, rfl⟩ := exists_suffix_of_mem_select hi
  exact selectOne_not_skipClass fun c hc => h c (hpos.subset hc)

/-- Settles O50: a first frame is classified fully literal, so its runs hold no Skip run for an instruction to take. -/
theorem firstFrameHasNoSkipClass : Obligations.FirstFrameHasNoSkipClass := by
  intro s raster es hv hes i hi
  rw [classify_first hv] at hes
  cases hes
  exact select_not_skipClass (skip_notMem_first_frame raster) hi

end Sys2Proof.Machine

namespace Sys2Proof

/-! ### The Repeat bytes under the two layouts (30_encoding.md R76, R78) -/

/-- Up to 64 blocks the 6-bit count field and the 7-bit one make the same opcode byte: bit 6, the layouts' difference, is 0. -/
theorem encode_repeatByte_eq_repeat7 {n : Nat} (h1 : 1 ≤ n) (h2 : n ≤ 64) (v : Byte) :
    encode (.repeatByte n v) = encode (.repeat7 n v) := by
  have hbyte : ∀ r : Fin 64, (0b10#2 ++ BitVec.ofNat 6 r : Byte) = 0b1#1 ++ BitVec.ofNat 7 r := by decide
  rw [encode, encode, hbyte ⟨n - 1, by omega⟩]

/-- Settles O5: under SEVEN_BIT the bytes are those of REPEAT7, and both instructions run the one body of the Repeats. -/
theorem repeatReadsAlikeUnderBothLayouts : Obligations.RepeatReadsAlikeUnderBothLayouts := by
  intro n v rest h1 h2
  refine ⟨decode_encode_repeatByte rest (Instr.wf_repeatByte.mpr ⟨h1, h2⟩), ?_, fun s => rfl⟩
  rw [encode_repeatByte_eq_repeat7 h1 h2]
  exact decode_encode_repeat7 rest (Instr.wf_repeat7.mpr ⟨h1, by omega⟩)

end Sys2Proof

namespace Sys2Proof.Machine

/-! ### The look-aheads (41_opcode_encoder.md R131, R132) -/

theorem shortSkip_skip {s : Nat} (h : s ≤ 7) (after : List Run) : shortSkip (.skip s :: after) = some (s, after) := if_pos h

/-- Eight or more literals at the head make a Literal-run of eight or more. -/
theorem eight_le_literalRun_length {d : List Byte} (h : 8 ≤ d.length) (after : List Run) :
    8 ≤ (literalRun (d.map .lit ++ after)).length := by
  simp only [literalRun, litPrefix_map, List.length_take, List.length_append, Config.longMax]
  omega

/-- What is left of the runs once a Literal-run is taken. -/
theorem drop_literalRun {d : List Byte} {after : List Run} (h : literalRun (d.map .lit ++ after) = d) :
    (d.map Run.lit ++ after).drop (literalRun (d.map .lit ++ after)).length = after := by
  rw [h, List.drop_left' (List.length_map _)]

/-! ### A Repeat run (41_opcode_encoder.md R132 to R134) -/

theorem selectRep_absorbs {n s : Nat} (hn : n ≤ 7) (hs : s ≤ 7) (v : Byte) (after : List Run) :
    selectRep v n (.skip s :: after) = (.repeatSkip n s v, after) := by
  rw [selectRep, if_pos hn, shortSkip_skip hs]

theorem selectRep_alone {n : Nat} {rest : List Run} (hn : n ≤ 7) (h : startsWithShortSkip rest = false) (v : Byte) :
    selectRep v n rest = (.repeatSkip n 0 v, rest) := by
  rw [selectRep, if_pos hn, shortSkip_none h]

theorem selectRep_long {n : Nat} (hn : 8 ≤ n) (v : Byte) (rest : List Run) : selectRep v n rest = (.repeatByte n v, rest) :=
  if_neg (Nat.not_le.mpr hn)

/-- Settles O42: one equation per form the walk can take at a Repeat run. -/
theorem selectAtRepeatRun : Obligations.SelectAtRepeatRun := by
  refine fun v n rest => ⟨?_, fun hn h => ?_, fun hn => ?_⟩
  · rintro hn s after hs rfl
    rw [select_cons, selectOne, selectRep_absorbs hn hs]
  · rw [select_cons, selectOne, selectRep_alone hn h]
  · rw [select_cons, selectOne, selectRep_long hn]

/-! ### A Skip run (41_opcode_encoder.md R135 to R137) -/

/-- A short Skip run takes a Literal-run of at most seven with it, the empty one included. -/
theorem selectSkip_absorbs {s : Nat} {d : List Byte} {after : List Run} (hs : s ≤ 7) (hd : d.length ≤ 7)
    (h : startsWithLit after = false) : selectSkip s (d.map .lit ++ after) = (.skipCopy s d, after) := by
  have hrun : literalRun (d.map .lit ++ after) = d := literalRun_short d (by omega) h
  rw [selectSkip, if_pos hs, drop_literalRun hrun, hrun, if_pos hd]

theorem selectSkip_alone {s : Nat} {rest : List Run} (hs : s ≤ 7) (h : 8 ≤ (literalRun rest).length) :
    selectSkip s rest = (.skipCopy s [], rest) := by
  rw [selectSkip, if_pos hs, if_neg (Nat.not_le.mpr h)]

theorem selectSkip_long {s : Nat} (hs : 8 ≤ s) (rest : List Run) : selectSkip s rest = (.longSkip s, rest) :=
  if_neg (Nat.not_le.mpr hs)

/-- Settles O43: one equation per form the walk can take at a Skip run; no literal after it is the empty Literal-run. -/
theorem selectAtSkipRun : Obligations.SelectAtSkipRun := by
  refine fun s rest => ⟨?_, fun hs h => ?_, ?_, fun hs => ?_⟩
  · rintro hs d after - hd h rfl
    rw [select_cons, selectOne, selectSkip_absorbs hs hd h]
  · rw [select_cons, selectOne]
    exact congrArg (fun p => p.1 :: select p.2) (selectSkip_absorbs (d := []) hs (Nat.zero_le _) h)
  · rintro hs d after hd rfl
    rw [select_cons, selectOne, selectSkip_alone hs (eight_le_literalRun_length hd after)]
  · rw [select_cons, selectOne, selectSkip_long hs]

/-! ### A Literal-run (41_opcode_encoder.md R131, R138 to R140) -/

section LiteralRun

variable {d : List Byte} {after : List Run}

/-- At literals the walk goes by the rule of the Literal-run. -/
theorem select_literals (h : 1 ≤ d.length) :
    select (d.map .lit ++ after) = (selectLit (d.map .lit ++ after)).1 :: select (selectLit (d.map .lit ++ after)).2 := by
  cases d with
  | nil => exact absurd h (Nat.not_succ_le_zero 0)
  | cons b d => exact select_cons (.lit b) (d.map .lit ++ after)

theorem selectLit_absorbs {s : Nat} {rest : List Run} (hd : d.length ≤ 7) (hs : s ≤ 7) :
    selectLit (d.map .lit ++ .skip s :: rest) = (.copySkip d s, rest) := by
  have hrun : literalRun (d.map .lit ++ .skip s :: rest) = d := literalRun_short d (by omega) rfl
  rw [selectLit, drop_literalRun hrun, hrun, if_pos hd, shortSkip_skip hs]

theorem selectLit_alone (hd : d.length ≤ 7) (hl : startsWithLit after = false) (hk : startsWithShortSkip after = false) :
    selectLit (d.map .lit ++ after) = (.copySkip d 0, after) := by
  have hrun : literalRun (d.map .lit ++ after) = d := literalRun_short d (by omega) hl
  rw [selectLit, drop_literalRun hrun, hrun, if_pos hd, shortSkip_none hk]

theorem selectLit_long (hd : 8 ≤ d.length) (hrun : literalRun (d.map .lit ++ after) = d) :
    selectLit (d.map .lit ++ after) = (.longCopy d, after) := by
  rw [selectLit, drop_literalRun hrun, hrun, if_neg (Nat.not_le.mpr hd)]

end LiteralRun

/-- Settles O44: one equation per form; 256 literals fill the Literal-run, fewer are one when no literal follows. -/
theorem selectAtLiteralRun : Obligations.SelectAtLiteralRun := by
  refine fun d after => ⟨?_, fun h1 h7 hl hk => ?_, fun h8 h256 hend => ?_⟩
  · rintro h1 h7 s rest hs rfl
    rw [select_literals h1, selectLit_absorbs h7 hs]
  · rw [select_literals h1, selectLit_alone h7 hl hk]
  · have hrun : literalRun (d.map .lit ++ after) = d := hend.elim (literalRun_full d after) (literalRun_short d h256)
    rw [select_literals (by omega), selectLit_long h8 hrun]

/-! ### The forms the walk emits (30_encoding.md R84) -/

theorem runInBounds_skip {c : Nat} : runInBounds (.skip c) = true ↔ 1 ≤ c ∧ c ≤ 256 := by simp [runInBounds]

theorem runInBounds_rep {v : Byte} {c : Nat} : runInBounds (.rep v c) = true ↔ 1 ≤ c ∧ c ≤ 64 := by simp [runInBounds]

/-- The canonical ranges lie inside the fields, and no canonical form is REPEAT7. -/
theorem wf_and_sixBit_of_canonical {i : Instr} (h : canonical i = true) : i.wf = true ∧ i.inLayout .sixBit = true := by
  cases i with
  | repeat7 n v => exact absurd h Bool.false_ne_true
  | longSkip n | skipCopy s d | longCopy d | copySkip d s | repeatByte n v | repeatSkip n s v =>
    refine ⟨?_, rfl⟩
    simp only [canonical, Bool.and_eq_true, decide_eq_true_eq] at h
    simp only [Instr.wf_longSkip, Instr.wf_skipCopy, Instr.wf_longCopy, Instr.wf_copySkip, Instr.wf_repeatByte, Instr.wf_repeatSkip]
    omega

theorem canonical_selectRep {v : Byte} {n : Nat} (h1 : 1 ≤ n) (h64 : n ≤ 64) (rest : List Run) :
    canonical (selectRep v n rest).1 = true := by
  unfold selectRep
  split_ifs with hn
  · cases hskip : shortSkip rest with
    | none => simpa [canonical] using ⟨h1, hn⟩
    | some p => simpa [canonical] using ⟨⟨h1, hn⟩, (shortSkip_some hskip).1⟩
  · simpa [canonical] using ⟨Nat.not_le.mp hn, h64⟩

theorem canonical_selectSkip {s : Nat} (h1 : 1 ≤ s) (h256 : s ≤ 256) (rest : List Run) :
    canonical (selectSkip s rest).1 = true := by
  unfold selectSkip
  split_ifs with hs hd
  · simpa [canonical] using ⟨⟨h1, hs⟩, hd⟩
  · simpa [canonical] using ⟨h1, hs⟩
  · simpa [canonical] using ⟨Nat.not_le.mp hs, h256⟩

theorem canonical_selectLit (b : Byte) (rest : List Run) : canonical (selectLit (.lit b :: rest)).1 = true := by
  have h1 : 1 ≤ (literalRun (.lit b :: rest)).length := by simp [literalRun, litPrefix]
  have h256 := literalRun_length_le (.lit b :: rest)
  unfold selectLit
  split_ifs with hd
  · cases hskip : shortSkip ((Run.lit b :: rest).drop (literalRun (.lit b :: rest)).length) with
    | none => simpa [canonical] using ⟨h1, hd⟩
    | some p => simpa [canonical] using ⟨⟨h1, hd⟩, (shortSkip_some hskip).1⟩
  · simpa [canonical] using ⟨Nat.not_le.mp hd, h256⟩

/-- The form picked at a run inside the chunk limits is canonical, whatever follows the run. -/
theorem canonical_selectOne {r : Run} (h : runInBounds r = true) (rest : List Run) : canonical (selectOne r rest).1 = true := by
  cases r with
  | skip s =>
    obtain ⟨h1, h256⟩ := runInBounds_skip.mp h
    exact canonical_selectSkip h1 h256 rest
  | rep v n =>
    obtain ⟨h1, h64⟩ := runInBounds_rep.mp h
    exact canonical_selectRep h1 h64 rest
  | lit b => exact canonical_selectLit b rest

/-- Settles O45: each emitted instruction is picked at a run of the sequence, so it is canonical, and so encodable under SIX_BIT. -/
theorem selectEmitsCanonicalInstructions : Obligations.SelectEmitsCanonicalInstructions := by
  intro rs hrs i hi
  obtain ⟨r, rest, hpos, rfl⟩ := exists_suffix_of_mem_select hi
  have hcanonical := canonical_selectOne (hrs r (hpos.subset List.mem_cons_self)) rest
  exact ⟨hcanonical, wf_and_sixBit_of_canonical hcanonical⟩

/-- Settles O46: each position advances the blocks of the runs it consumes. -/
theorem selectKeepsTheBlockCount : Obligations.SelectKeepsTheBlockCount := advSum_select

/-! ### Padding (41_opcode_encoder.md R143, R144) -/

theorem advSum_pad (fb be : Nat) : advSum (pad fb be) = fb - be := by
  rw [pad, advSum_longSkips, chunks_sum]

theorem pad_wf {fb be : Nat} {i : Instr} (h : i ∈ pad fb be) : i.wf = true := by
  obtain ⟨n, hn, rfl⟩ := List.mem_map.mp h
  exact Instr.wf_longSkip.mpr (mem_chunks (by decide) hn)

theorem pad_eq (fb be : Nat) :
    pad fb be = List.replicate ((fb - be) / 256) (.longSkip 256) ++
      (if (fb - be) % 256 = 0 then [] else [.longSkip ((fb - be) % 256)]) := by
  rw [pad, chunks, List.map_append, List.map_replicate, apply_ite (List.map Instr.longSkip)]
  rfl

/-- Settles O47: the padding is the missing blocks cut into chunks of 256, and chunks sum to what they cut. -/
theorem paddingReachesFrameSize : Obligations.PaddingReachesFrameSize := by
  refine fun fb be h => ⟨pad_eq fb be, ?_, fun i hi => pad_wf hi⟩
  rw [advSum_pad, Nat.add_sub_cancel' h]

/-! ### The commit of a frame (41_opcode_encoder.md R143 to R146) -/

/-- Classification answers when a previous raster has the same length. -/
theorem exists_classify {s : State} {raster : List Byte} (h : s.prevValid = true → s.prev.length = raster.length) :
    ∃ es, classify s raster = .ok es := by
  cases hv : s.prevValid with
  | false => exact ⟨_, classify_first hv raster⟩
  | true => exact ⟨_, classify_against hv (h hv)⟩

/-- Instructions that fit pass both checks: padding brings them to FB exactly, so the second one never fails. -/
theorem padAndCommit_fits {is : List Instr} {s : State} (h : advSum is ≤ s.cfg.fb) (raster : List Byte) :
    s.padAndCommit is raster = s.commit (encodeAll (is ++ pad s.cfg.fb (advSum is))) raster := by
  have hsum : advSum is + advSum (pad s.cfg.fb (advSum is)) = s.cfg.fb := by rw [advSum_pad, Nat.add_sub_cancel' h]
  rw [State.padAndCommit, if_neg (Nat.not_lt.mpr h), if_neg (not_not.mpr hsum)]

/-- In READY a classified raster goes on to the checks and the commit. -/
theorem encodeFrame_classified {s : State} {raster : List Byte} {es : List Elem} (hready : s.estate = .ready)
    (hes : classify s raster = .ok es) : s.encodeFrame raster = s.padAndCommit (frameInstrs es raster) raster := by
  rw [State.encodeFrame, if_neg (by simp [hready]), hes]

/-- Settles O49: the raster is classified, its instructions advance as many blocks as it has, and padding adds the rest of FB. -/
theorem encodeFrameCommits : Obligations.EncodeFrameCommits := by
  intro s raster hreset hready hprev hfit
  obtain ⟨es, hes⟩ := exists_classify hprev
  have hadv : advSum (frameInstrs es raster) = raster.length := advSum_frameInstrs (classify_length hes)
  refine ⟨es, _, hes, rfl, ?_, ?_⟩
  · rw [advSum_append, hadv, advSum_pad, Nat.add_sub_cancel' hfit]
  · rw [runTransaction, doEncodeFrame, afterFirstReset, if_pos hreset, encodeFrame_classified hready hes,
      padAndCommit_fits (hadv ▸ hfit), hadv]
    rfl

end Sys2Proof.Machine

namespace Sys2Proof

/-! ### The opcode bytes of the short forms, field by field (30_encoding.md R72, R74) -/

theorem packShort_left (tag : BitVec 2) (b : BitVec 3) (n : Nat) : packShort tag b.toNat n = tag ++ b ++ BitVec.ofNat 3 n := by
  simp [packShort]

theorem packShort_right (tag : BitVec 2) (n : Nat) (b : BitVec 3) : packShort tag n b.toNat = tag ++ BitVec.ofNat 3 n ++ b := by
  simp [packShort]

/-! ### The blocks each instruction advances (30_encoding.md R82) -/

@[simp] theorem Instr.adv_longSkip (n : Nat) : (longSkip n).adv = n := by simp [adv, put, skip, skipBefore, skipAfter]

@[simp] theorem Instr.adv_skipCopy (s : Nat) (d : List Byte) : (skipCopy s d).adv = s + d.length := Nat.add_comm d.length s

@[simp] theorem Instr.adv_longCopy (d : List Byte) : (longCopy d).adv = d.length := rfl

@[simp] theorem Instr.adv_copySkip (d : List Byte) (s : Nat) : (copySkip d s).adv = d.length + s := by
  simp [adv, put, skip, skipBefore, skipAfter]

@[simp] theorem Instr.adv_repeatByte (n : Nat) (v : Byte) : (repeatByte n v).adv = n := rfl

@[simp] theorem Instr.adv_repeatSkip (n s : Nat) (v : Byte) : (repeatSkip n s v).adv = n + s := by
  simp [adv, put, skip, skipBefore, skipAfter]

@[simp] theorem Instr.adv_repeat7 (n : Nat) (v : Byte) : (repeat7 n v).adv = n := rfl

end Sys2Proof

namespace Sys2Proof.Machine

/-! ### The events of each instruction (42_opcode_decoder.md R175 to R181) -/

section InstrEvents

variable (blk n s : Nat) (v : Byte) (d : List Byte)

@[simp] theorem instrEvents_longSkip : instrEvents (.longSkip (n + 1)) blk = [.adv blk (n + 1)] := rfl

@[simp] theorem instrEvents_skipCopy : instrEvents (.skipCopy s d) blk = skipEvents blk s ++ putEvents (blk + s) d :=
  List.append_nil _

@[simp] theorem instrEvents_longCopy : instrEvents (.longCopy d) blk = putEvents blk d := List.append_nil _

@[simp] theorem instrEvents_copySkip : instrEvents (.copySkip d s) blk = putEvents blk d ++ skipEvents (blk + d.length) s := rfl

@[simp] theorem instrEvents_repeatByte : instrEvents (.repeatByte n v) blk = putEvents blk (List.replicate n v) := List.append_nil _

@[simp] theorem instrEvents_repeatSkip :
    instrEvents (.repeatSkip n s v) blk = putEvents blk (List.replicate n v) ++ skipEvents (blk + n) s := rfl

@[simp] theorem instrEvents_repeat7 : instrEvents (.repeat7 n v) blk = putEvents blk (List.replicate n v) := List.append_nil _

end InstrEvents

/-! ### What each instruction answers (42_opcode_decoder.md R175 to R181) -/

section Executes

variable {s t : State} {i : Instr} {adv : Nat} {events : List Event}

theorem exec_overruns_by (hadv : i.adv = adv) (hn : s.cur + i.byteLength ≤ s.inp.length) (hf : s.blk + adv > s.cfg.fb) :
    exec i s = .next (overrunState s adv) := by
  subst hadv
  exact exec_overruns i s hn hf

theorem exec_effect (hadv : i.adv = adv) (hev : instrEvents i s.blk = events) (hn : s.cur + i.byteLength ≤ s.inp.length)
    (hf : s.blk + adv ≤ s.cfg.fb) :
    ∃ t, exec i s = .next t ∧ Effect s t i.byteLength adv (putBase i s.blk) i.putBytes events := by
  subst hadv hev
  obtain ⟨t, ht, -, heff⟩ := exec_completes i s hn hf
  exact ⟨t, ht, heff⟩

/-- The three answers of an instruction with one need: cut short, too long for the frame, or completed. -/
theorem exec_answers (hneed : needOf i s = i.byteLength) (hadv : i.adv = adv) (hev : instrEvents i s.blk = events) :
    (s.cur + i.byteLength > s.inp.length → exec i s = .next (underflowState s i.byteLength)) ∧
    (s.cur + i.byteLength ≤ s.inp.length → s.blk + adv > s.cfg.fb → exec i s = .next (overrunState s adv)) ∧
    (s.cur + i.byteLength ≤ s.inp.length → s.blk + adv ≤ s.cfg.fb →
      ∃ t, exec i s = .next t ∧ Effect s t i.byteLength adv (putBase i s.blk) i.putBytes events) :=
  ⟨fun hn => hneed ▸ exec_underflows i s hn, exec_overruns_by hadv, exec_effect hadv hev⟩

/-- Where an instruction that writes nothing would write makes no difference. -/
theorem Effect.rebase {len base : Nat} (h : Effect s t len adv base [] events) (base' : Nat) :
    Effect s t len adv base' [] events :=
  { h with
    dm_eq := fun a => by
      rw [h.dm_eq, if_neg (by simp), if_neg (by simp)] }

end Executes

/-- Settles O6: the count byte gives N + 1, and a skip writes no block, so its effect holds with any base. -/
theorem longSkipExecutes : Obligations.LongSkipExecutes := by
  intro N s
  obtain ⟨hshort, hover, hdone⟩ :=
    exec_answers (s := s) rfl (Instr.adv_longSkip (N.toNat + 1)) (instrEvents_longSkip s.blk N.toNat)
  refine ⟨fun l rest => by rw [decode_longSkip, takeByte_cons], hshort, hover, fun hn hf => ?_⟩
  obtain ⟨t, ht, heff⟩ := hdone hn hf
  exact ⟨t, ht, heff.rebase s.blk⟩

/-- Settles O7: the opcode byte is the packed one, and the events are the skip's and then the writes'. -/
theorem skipCopyExecutes : Obligations.SkipCopyExecutes := by
  intro S d s hd hne
  have hwf : (Instr.skipCopy S.toNat d).wf = true :=
    Instr.wf_skipCopy.mpr ⟨field_le_seven S, hd, hne.imp (BitVec.toNat_ne_iff_ne (y := 0)).mpr (mt List.length_eq_zero_iff.mp)⟩
  refine ⟨fun l rest => ?_, exec_answers rfl (Instr.adv_skipCopy S.toNat d) (instrEvents_skipCopy s.blk S.toNat d)⟩
  rw [← packShort_left]
  exact decode_encode_skipCopy l rest hwf

/-- Settles O8: the opcode byte is the packed one, and the events are the writes' and then the skip's. -/
theorem copySkipExecutes : Obligations.CopySkipExecutes := by
  intro d S s hd hne
  have hwf : (Instr.copySkip d S.toNat).wf = true :=
    Instr.wf_copySkip.mpr ⟨hd, field_le_seven S, hne.imp (mt List.length_eq_zero_iff.mp) (BitVec.toNat_ne_iff_ne (y := 0)).mpr⟩
  refine ⟨fun l rest => ?_, exec_answers rfl (Instr.adv_copySkip d S.toNat) (instrEvents_copySkip s.blk S.toNat d)⟩
  rw [← packShort_right]
  exact decode_encode_copySkip l rest hwf

/-- Settles O9: the count byte makes the instruction 3 + N bytes long, and it is the first need when it is missing. -/
theorem longCopyExecutes : Obligations.LongCopyExecutes := by
  intro N d s hd
  have hlen : (Instr.longCopy d).byteLength = 3 + N.toNat := by rw [Instr.byteLength, hd]; omega
  have hadv : (Instr.longCopy d).adv = N.toNat + 1 := (Instr.adv_longCopy d).trans hd
  rw [← hlen]
  refine ⟨fun l rest => ?_, fun hcount => ?_, fun hcount hn => ?_, exec_overruns_by hadv,
    exec_effect hadv (instrEvents_longCopy s.blk d)⟩
  · rw [decode_longCopy, takeLongCopy_cons, ← hd, takeData_append]
  · rw [exec_underflows (.longCopy d) s (by omega), needOf, if_pos hcount]
  · rw [exec_underflows (.longCopy d) s hn, needOf, if_neg (by omega), Instr.byteLength]

/-- Settles O10: the field R of 6 bits stands for R + 1 writes under SIX_BIT. -/
theorem repeatExecutes : Obligations.RepeatExecutes := fun R V s =>
  ⟨fun rest => by rw [decode_repeat, takeByte_cons],
    exec_answers rfl (Instr.adv_repeatByte (R.toNat + 1) V) (instrEvents_repeatByte s.blk (R.toNat + 1) V)⟩

/-- Settles O11: the field R of 7 bits stands for R + 1 writes under SEVEN_BIT. -/
theorem repeatSevenBitExecutes : Obligations.RepeatSevenBitExecutes := fun R V s =>
  ⟨fun rest => by rw [decode_repeat7, takeByte_cons],
    exec_answers rfl (Instr.adv_repeat7 (R.toNat + 1) V) (instrEvents_repeat7 s.blk (R.toNat + 1) V)⟩

/-- Settles O12: both fields are unbiased, so R = 0 writes nothing and S = 0 emits no event. -/
theorem repeatSkipExecutes : Obligations.RepeatSkipExecutes := by
  intro R S V s
  refine ⟨fun rest => ?_,
    exec_answers rfl (Instr.adv_repeatSkip R.toNat S.toNat V) (instrEvents_repeatSkip s.blk R.toNat S.toNat V)⟩
  rw [← packShort_toNat]
  exact decode_repeatSkip (V :: rest) R S

/-! ### What an instruction leaves unchanged (42_opcode_decoder.md R175 to R181, "State written") -/

section ExecFrame

variable {s t : State} {i : Instr}

theorem exec_dmByte_outside (h : exec i s = .next t) {a : Nat}
    (ha : ¬ (putBase i s.blk ≤ a ∧ a < putBase i s.blk + i.put)) : t.dmByte a = s.dmByte a := by
  obtain ⟨k, rfl⟩ | ⟨n, -, rfl⟩ | ⟨-, -, -, heff⟩ := exec_eq_next h
  · rfl
  · rfl
  · rw [heff.dm_eq, putBytes_length, if_neg ha]

theorem exec_other_fields (h : exec i s = .next t) :
    t = { s with
      dstate := t.dstate, dfault := t.dfault, dfinfo := t.dfinfo, cur := t.cur, blk := t.blk, dframes := t.dframes,
      trace := t.trace, dm := t.dm } := by
  obtain ⟨k, rfl⟩ | ⟨n, -, rfl⟩ | ⟨-, -, -, heff⟩ := exec_eq_next h
  · rfl
  · rfl
  · rw [heff.rest_eq]

theorem exec_fault_fields (h : exec i s = .next t) :
    t.dstate = s.dstate ∧ t.dfault = s.dfault ∧ t.dfinfo = s.dfinfo ∨ t.dstate = .fault := by
  obtain ⟨k, rfl⟩ | ⟨n, -, rfl⟩ | ⟨-, -, -, heff⟩ := exec_eq_next h
  · exact .inr rfl
  · exact .inr rfl
  · rw [heff.rest_eq]
    exact .inl ⟨rfl, rfl, rfl⟩

/-- An instruction without bytes to write leaves DM's list as it is. -/
theorem exec_dm_of_putBytes_nil (hput : i.putBytes = []) (h : exec i s = .next t) : t.dm = s.dm := by
  obtain ⟨k, rfl⟩ | ⟨n, -, rfl⟩ | ⟨-, -, hdm, -⟩ := exec_eq_next h
  · rfl
  · rfl
  · rw [hdm, hput, writeAll]

end ExecFrame

/-- Settles O13: each of the three ends of an instruction leaves the other blocks and the other fields. -/
theorem writingInstructionFrame : Obligations.WritingInstructionFrame := fun _ _ _ h _ =>
  ⟨fun _ => exec_dmByte_outside h, exec_other_fields h, exec_fault_fields h⟩

/-- Settles O14: LONGSKIP has no bytes to write, so DM's list is kept with the fields every instruction leaves. -/
theorem longSkipFrame : Obligations.LongSkipFrame := by
  intro n s t h
  have hrest := exec_other_fields h
  rw [exec_dm_of_putBytes_nil rfl h] at hrest
  exact ⟨fun a => exec_dmByte_outside h fun ha => Nat.not_lt.mpr ha.1 ha.2, hrest, exec_fault_fields h⟩

/-! ### DecStep and DecLoad, case by case (42_opcode_decoder.md R170, R171, R182, R183) -/

section DecoderTransactions

variable {s : State}

theorem afterFirstReset_of_resetDone (h : s.resetDone = true) (r : Result) : afterFirstReset s r = r := if_pos h

theorem doDecStep_not_running (h : s.resetDone = true) (hrun : s.dstate ≠ .run) : doDecStep s = .next s := by
  rw [doDecStep, afterFirstReset_of_resetDone h, if_pos hrun]

theorem doDecStep_at_end (h : s.resetDone = true) (hrun : s.dstate = .run) (hend : s.cur = s.inp.length) :
    doDecStep s = .next s.endOfStream := by
  rw [doDecStep, afterFirstReset_of_resetDone h, if_neg (not_not.mpr hrun), if_pos hend]

/-- With bytes at the cursor a running decoder runs what it fetches. -/
theorem doDecStep_fetches (h : s.resetDone = true) (hrun : s.dstate = .run) (hbytes : s.inp.drop s.cur ≠ []) :
    doDecStep s = runFetched s.fetch s := by
  have hend : s.cur ≠ s.inp.length := fun hend => hbytes (by rw [hend, List.drop_length])
  rw [doDecStep, afterFirstReset_of_resetDone h, if_neg (not_not.mpr hrun), if_neg hend]

theorem doDecStep_of_decode {i : Instr} {rest : List Byte} (h : s.resetDone = true) (hrun : s.dstate = .run)
    (hdecode : decode s.cfg.layout (s.inp.drop s.cur) = .ok (i, rest)) : doDecStep s = exec i s := by
  have hbytes : s.inp.drop s.cur ≠ [] := by
    intro hnil
    rw [hnil] at hdecode
    cases hdecode
  rw [doDecStep_fetches h hrun hbytes, State.fetch, hdecode, runFetched]

end DecoderTransactions

/-- Settles O16: with either queue the step is a DecStep, which runs what the decoder reads at the cursor. -/
theorem stepRunsDecodedInstruction : Obligations.StepRunsDecodedInstruction := by
  intro s i rest hreset hrun hdecode
  refine ⟨fun hq => ?_, fun ts hq => ?_⟩
  · rw [step_of_queue_nil hq]
    exact doDecStep_of_decode hreset hrun hdecode
  · rw [step_of_queue_cons hq]
    exact doDecStep_of_decode (s := { s with hostQueue := ts }) hreset hrun hdecode

/-- Settles O18: the two branches of EndOfStream. -/
theorem endOfStreamStops : Obligations.EndOfStreamStops := by
  intro s hreset hrun hend
  rw [runTransaction, doDecStep_at_end hreset hrun hend, State.endOfStream]
  refine ⟨fun hblk => ?_, fun hblk => ?_⟩
  · rw [if_pos hblk]
  · rw [if_neg hblk, raiseUnderflow_eq]

/-- Settles O19: the branch of DecStep outside RUN. -/
theorem decStepOutsideRunDoesNothing : Obligations.DecStepOutsideRunDoesNothing := fun _ => doDecStep_not_running

/-- Settles O20: one branch of DecLoad for each value of DSTATE. -/
theorem decLoadStartsTheStream : Obligations.DecLoadStartsTheStream := by
  intro s stream hreset
  rw [runTransaction, doDecLoad, afterFirstReset_of_resetDone hreset]
  constructor
  · rintro (hd | hd) <;> rw [hd] <;> rfl
  · rintro (hd | hd) <;> rw [hd]

/-! ### Decoding an instruction cut short (42_opcode_decoder.md R172, 60_exceptions.md R217) -/

section Truncated

variable {l : Layout} {m : Nat}

theorem decode_skipCopy_of_wf {s : Nat} {d : List Byte} (rest : List Byte) (h : (Instr.skipCopy s d).wf = true) :
    decode l (packShort 0b00 s d.length :: rest) = takeData 1 d.length rest (.skipCopy s) := by
  obtain ⟨hs, hd, hne⟩ := Instr.wf_skipCopy.mp h
  obtain ⟨s, rfl⟩ := exists_field_of_le_seven hs
  obtain ⟨c, hc⟩ := exists_field_of_le_seven hd
  rw [← hc, fields_ne_zero_iff] at hne
  rw [← hc, decode_skipCopy l rest hne]

theorem decode_copySkip_of_wf {d : List Byte} {s : Nat} (rest : List Byte) (h : (Instr.copySkip d s).wf = true) :
    decode l (packShort 0b01 d.length s :: rest) = takeData 1 d.length rest fun d => .copySkip d s := by
  obtain ⟨hd, hs, hne⟩ := Instr.wf_copySkip.mp h
  obtain ⟨s, rfl⟩ := exists_field_of_le_seven hs
  obtain ⟨c, hc⟩ := exists_field_of_le_seven hd
  rw [← hc, fields_ne_zero_iff] at hne
  rw [← hc, decode_copySkip l rest hne]

theorem takeData_take {used : Nat} {d : List Byte} (h : m < d.length) (mk : List Byte → Instr) :
    takeData used d.length (d.take m) mk = .error (.truncated (used + d.length)) :=
  takeData_short (by rw [List.length_take]; omega)

/-- A two-byte instruction cut short is its opcode byte, and decoding wants the byte after it. -/
theorem decode_take_two {op v : Byte} {mk : Byte → Instr} (hop : ∀ rest, decode l (op :: rest) = takeByte rest mk)
    (h1 : 1 ≤ m) (hm : m < [op, v].length) : decode l ([op, v].take m) = .error (.truncated 2) := by
  obtain rfl : m = 1 := Nat.le_antisymm (Nat.le_of_lt_succ hm) h1
  exact hop []

/-- A short copy form cut short wants its opcode byte and all its data bytes. -/
theorem decode_take_short {op : Byte} {d : List Byte} {mk : List Byte → Instr}
    (hop : ∀ rest, decode l (op :: rest) = takeData 1 d.length rest mk) (h1 : 1 ≤ m) (hm : m < (op :: d).length) :
    decode l ((op :: d).take m) = .error (.truncated (1 + d.length)) := by
  obtain ⟨m, rfl⟩ := Nat.exists_eq_add_of_le' h1
  rw [List.take_succ_cons, hop, takeData_take (Nat.lt_of_succ_lt_succ hm)]

/-- A LongCopy cut before its count byte wants that byte; with it, all its data bytes. -/
theorem decode_take_longCopy {d : List Byte} (hwf : (Instr.longCopy d).wf = true) (h1 : 1 ≤ m)
    (hm : m < (encode (.longCopy d)).length) :
    decode l ((encode (.longCopy d)).take m) = .error (.truncated (if m = 1 then 2 else 2 + d.length)) := by
  obtain ⟨hd1, hd2⟩ := Instr.wf_longCopy.mp hwf
  match m, h1 with
  | 1, _ => exact decode_longCopy l []
  | m + 2, _ =>
    have hshort : m < d.length := Nat.lt_of_succ_lt_succ (Nat.lt_of_succ_lt_succ hm)
    rw [encode, List.take_succ_cons, List.take_succ_cons, decode_longCopy, takeLongCopy_cons, packCount_toNat hd1 hd2,
      takeData_take hshort, if_neg (by omega)]

/-- The bytes of an instruction cut short decode to the need of its rule. -/
theorem decode_take_encode {i : Instr} (hwf : i.wf = true) (hl : i.inLayout l = true) (h1 : 1 ≤ m)
    (hm : m < (encode i).length) : decode l ((encode i).take m) = .error (.truncated (prefixNeed i m)) := by
  cases i with
  | longSkip n => exact decode_take_two (decode_longSkip l) h1 hm
  | skipCopy s d => exact decode_take_short (fun rest => decode_skipCopy_of_wf rest hwf) h1 hm
  | longCopy d => exact decode_take_longCopy hwf h1 hm
  | copySkip d s => exact decode_take_short (fun rest => decode_copySkip_of_wf rest hwf) h1 hm
  | repeatByte n v =>
    cases l with
    | sixBit => exact decode_take_two (fun rest => decode_repeat rest _) h1 hm
    | sevenBit => exact absurd hl Bool.false_ne_true
  | repeatSkip n s v =>
    cases l with
    | sixBit =>
      obtain ⟨hn, hs⟩ := Instr.wf_repeatSkip.mp hwf
      obtain ⟨n, rfl⟩ := exists_field_of_le_seven hn
      obtain ⟨s, rfl⟩ := exists_field_of_le_seven hs
      exact decode_take_two (fun rest => decode_repeatSkip rest n s) h1 hm
    | sevenBit => exact absurd hl Bool.false_ne_true
  | repeat7 n v =>
    cases l with
    | sixBit => exact absurd hl Bool.false_ne_true
    | sevenBit => exact decode_take_two (fun rest => decode_repeat7 rest _) h1 hm

end Truncated

/-- Settles O17: the cut bytes decode to their need, which is raised before the instruction's blocks are looked at. -/
theorem truncatedInstructionUnderflows : Obligations.TruncatedInstructionUnderflows := by
  intro s i m hreset hrun hq hwf hl h1 hm hcut
  have hbytes : s.inp.drop s.cur ≠ [] := by
    rw [hcut, ← List.length_pos_iff, List.length_take]
    omega
  rw [step_of_queue_nil hq, runTransaction, doDecStep_fetches hreset hrun hbytes, State.fetch, hcut,
    decode_take_encode hwf hl h1 hm, runFetched, raiseUnderflow_eq]

/-! ### No fault outcome (42_opcode_decoder.md R173, 20_memory.md R50) -/

section NeverFaults

variable (s : State)

/-- Every instruction answers a next state: a block outside DM is never written, since `Fit` comes first. -/
theorem exec_total (i : Instr) : ∃ t, exec i s = .next t := by
  obtain ⟨-, h⟩ | ⟨-, -, h⟩ | ⟨-, -, t, h, -⟩ := exec_inversion i s
  · exact ⟨_, h⟩
  · exact ⟨_, h⟩
  · exact ⟨t, h⟩

theorem runFetched_total (f : Decoded) : ∃ t, runFetched f s = .next t :=
  match f with
  | .ok (i, _) => exec_total s i
  | .error (.truncated _) => ⟨_, rfl⟩

variable (e : Fault)

theorem afterFirstReset_ne_fault {r : Result} (h : r ≠ .fault e) : afterFirstReset s r ≠ .fault e := by
  unfold afterFirstReset
  split
  · exact h
  · nofun

theorem doReset_ne_fault (cfg : Cfg) : doReset cfg s ≠ .fault e := by
  unfold doReset
  split <;> nofun

theorem doDecLoad_ne_fault (stream : List Byte) : doDecLoad stream s ≠ .fault e := by
  refine afterFirstReset_ne_fault s e ?_
  cases s.dstate <;> nofun

theorem doDecStep_ne_fault : doDecStep s ≠ .fault e := by
  refine afterFirstReset_ne_fault s e ?_
  obtain ⟨t, ht⟩ := runFetched_total s s.fetch
  rw [ht]
  split_ifs <;> nofun

theorem runTransaction_ne_fault (tr : Transaction) : runTransaction tr s ≠ .fault e := by
  cases tr with
  | reset cfg => exact doReset_ne_fault s e cfg
  | encodeFrame raster => exact afterFirstReset_ne_fault s e nofun
  | decLoad stream => exact doDecLoad_ne_fault s e stream
  | decStep => exact doDecStep_ne_fault s e

end NeverFaults

/-- Settles O30: a step is one transaction, and none of the four faults. -/
theorem stepNeverFaults : Obligations.StepNeverFaults := by
  intro s e
  cases hq : s.hostQueue with
  | nil => rw [step_of_queue_nil hq]; exact runTransaction_ne_fault s e _
  | cons tr ts => rw [step_of_queue_cons hq]; exact runTransaction_ne_fault _ e tr

end Sys2Proof.Machine

namespace Sys2Proof.Machine

/-! ### The decoder's fault entry (60_exceptions.md R219, R220) -/

section DecoderFaultEntry

variable {s t : State}

/-- The end of the stream comes at a frame boundary or inside a frame (42_opcode_decoder.md R183). -/
theorem endOfStream_cases (s : State) :
    s.endOfStream = { s with dstate := .done } ∨ s.endOfStream = underflowState s 1 := by
  unfold State.endOfStream
  split
  · exact .inl rfl
  · exact .inr (raiseUnderflow_eq s 1)

/-- An instruction enters FAULT by one of the two fault entries, with what they record. -/
theorem exec_enters_fault {i : Instr} (hs : s.dstate ≠ .fault) (h : exec i s = .next t) (ht : t.dstate = .fault) :
    (∃ k, t = underflowState s k) ∨ (∃ n, t = overrunState s n ∧ s.blk + n > s.cfg.fb) := by
  obtain hk | ⟨n, hover, rfl⟩ | ⟨-, -, -, heff⟩ := exec_eq_next h
  · exact .inl hk
  · exact .inr ⟨n, rfl, hover⟩
  · exact absurd (heff.dstate_eq.symm.trans ht) hs

/-- A DecStep enters FAULT by its instruction, by one that is cut short, or by a stream that ends inside a frame. -/
theorem doDecStep_enters_fault (hs : s.dstate ≠ .fault) (h : doDecStep s = .next t) (ht : t.dstate = .fault) :
    (∃ k, t = underflowState s k) ∨ (∃ n, t = overrunState s n ∧ s.blk + n > s.cfg.fb) := by
  obtain ⟨-, rfl⟩ | ⟨-, -, rfl⟩ | ⟨-, -, h⟩ := doDecStep_eq_next h
  · exact absurd ht hs
  · obtain hend | hend := endOfStream_cases s
    · rw [hend] at ht
      cases ht
    · exact .inl ⟨1, hend⟩
  · obtain ⟨i, rest, -, h⟩ | ⟨k, -, rfl⟩ := runFetched_eq_next h
    · exact exec_enters_fault hs h ht
    · exact .inl ⟨k, rfl⟩

end DecoderFaultEntry

/-- Settles O23: both ways into FAULT write the three fault fields alone. -/
theorem decoderFaultsArePrecise : Obligations.DecoderFaultsArePrecise := by
  intro s t hs h ht
  have hentry := doDecStep_enters_fault hs h ht
  refine ⟨?_, hentry⟩
  obtain ⟨k, rfl⟩ | ⟨n, rfl, -⟩ := hentry
  · rfl
  · rfl

/-! ### The encoder's fault entry (60_exceptions.md R211, R212, R216, R218) -/

section EncoderFaultEntry

variable {s : State} {raster : List Byte}

/-- In READY a raster that is not classified raises LengthMismatch, before any length is held to the frame. -/
theorem encodeFrame_unclassified {info : EInfo} (hready : s.estate = .ready) (hinfo : classify s raster = .error info) :
    s.encodeFrame raster = s.raiseEnc .lengthMismatch info := by
  rw [State.encodeFrame, if_neg (by simp [hready]), hinfo]

/-- Instructions that pass the frame end raise BlockAccountingMismatch with their own block sum. -/
theorem padAndCommit_overruns {is : List Instr} (h : advSum is > s.cfg.fb) (raster : List Byte) :
    s.padAndCommit is raster = s.raiseAccounting raster (advSum is) := if_pos h

end EncoderFaultEntry

/-- Settles O48: Classify's record comes first; a classified raster's instructions advance as many blocks as it has. -/
theorem encodeFrameFaults : Obligations.EncodeFrameFaults := by
  intro s raster hready
  refine ⟨fun hvalid hlen => ?_, fun hprev hlong => ?_⟩
  · rw [encodeFrame_unclassified hready (classify_lengthMismatch hvalid hlen), State.raiseEnc]
  · obtain ⟨es, hes⟩ := exists_classify hprev
    have hadv : advSum (frameInstrs es raster) = raster.length := advSum_frameInstrs (classify_length hes)
    rw [encodeFrame_classified hready hes, padAndCommit_overruns (hadv ▸ hlong), hadv, State.raiseAccounting, State.raiseEnc]

/-! ### Faults are sticky (60_exceptions.md R221) -/

section StickyFaults

variable {s t : State} {tr : Transaction}

theorem encodeFrame_in_fault (hf : s.estate = .fault) (raster : List Byte) : s.encodeFrame raster = s := if_pos hf

theorem doDecLoad_in_fault (hreset : s.resetDone = true) (hf : s.dstate = .fault) (stream : List Byte) :
    doDecLoad stream s = .refused .decoderBusy :=
  (decLoadStartsTheStream s stream hreset).2 (.inr hf)

theorem doDecStep_in_fault (hreset : s.resetDone = true) (hf : s.dstate = .fault) : doDecStep s = .next s :=
  doDecStep_not_running hreset (by simp [hf])

/-- An encoder in FAULT keeps its whole view: EncodeFrame has no effect, and the decoder's transactions leave it. -/
theorem sameEncoder_of_estate_fault (htr : ∀ cfg, tr ≠ .reset cfg) (h : runTransaction tr s = .next t)
    (hf : s.estate = .fault) : SameEncoder s t := by
  cases tr with
  | reset cfg => exact absurd rfl (htr cfg)
  | encodeFrame raster =>
    obtain rfl := doEncodeFrame_eq_next h
    rw [encodeFrame_in_fault hf]
    exact SameEncoder.refl s
  | decLoad stream =>
    obtain rfl := doDecLoad_eq_next h
    exact load_sameEncoder s stream
  | decStep => exact doDecStep_sameEncoder h

/-- A decoder in FAULT keeps its whole view: DecLoad is refused, DecStep has no effect, and EncodeFrame leaves it. -/
theorem sameDecoder_of_dstate_fault (hreset : s.resetDone = true) (htr : ∀ cfg, tr ≠ .reset cfg)
    (h : runTransaction tr s = .next t) (hf : s.dstate = .fault) : SameDecoder s t := by
  cases tr with
  | reset cfg => exact absurd rfl (htr cfg)
  | encodeFrame raster =>
    obtain rfl := doEncodeFrame_eq_next h
    exact encodeFrame_sameDecoder s raster
  | decLoad stream => cases (doDecLoad_in_fault hreset hf stream).symm.trans h
  | decStep =>
    obtain rfl := Host.Outcome.next.inj ((doDecStep_in_fault hreset hf).symm.trans h)
    exact SameDecoder.refl s

end StickyFaults

/-- Settles O27: an agent in FAULT keeps its view under all transactions but Reset, and each agent leaves the other's view. -/
theorem faultsAreSticky : Obligations.FaultsAreSticky := by
  intro s hreset
  refine ⟨fun hf raster => ?_, fun hf => ⟨doDecStep_in_fault hreset hf, doDecLoad_in_fault hreset hf⟩,
    fun tr t htr h => ⟨fun hf => ?_, fun hf => ?_⟩, fun cfg t h => ?_, fun raster t h => ?_, fun t h => ?_⟩
  · rw [runTransaction, doEncodeFrame, afterFirstReset_of_resetDone hreset, encodeFrame_in_fault hf]
  · have hsame := sameEncoder_of_estate_fault htr h hf
    exact ⟨hsame.estate_eq ▸ hf, hsame.efault_eq.symm, hsame.efinfo_eq.symm⟩
  · have hsame := sameDecoder_of_dstate_fault hreset htr h hf
    exact ⟨hsame.dstate_eq ▸ hf, hsame.dfault_eq.symm, hsame.dfinfo_eq.symm⟩
  · obtain ⟨-, rfl⟩ := doReset_eq_next h
    exact ⟨rfl, rfl⟩
  · obtain rfl := doEncodeFrame_eq_next h
    have hsame := encodeFrame_sameDecoder s raster
    exact ⟨hsame.dstate_eq.symm, hsame.dfault_eq.symm⟩
  · have hsame := doDecStep_sameEncoder h
    exact ⟨hsame.estate_eq.symm, hsame.efault_eq.symm⟩

end Sys2Proof.Machine

namespace Sys2Proof.Machine

/-! ### What a transaction other than Reset keeps (70_reset_and_hazards.md R250, 10_state.md R26, 20_memory.md R60) -/

section Stability

variable {s t : State}

/-- EncodeFrame appends to OUT or leaves it, and counts the frames it appends. -/
theorem encodeFrame_extends_out (raster : List Byte) (s : State) :
    s.out <+: (s.encodeFrame raster).out ∧ s.eframes ≤ (s.encodeFrame raster).eframes := by
  obtain h | ⟨k, info, -, h⟩ | ⟨-, is, -, h⟩ := encodeFrame_cases raster s <;> rw [h]
  · exact ⟨List.prefix_rfl, le_rfl⟩
  · exact ⟨List.prefix_rfl, le_rfl⟩
  · exact ⟨List.prefix_append _ _, Nat.le_succ _⟩

theorem endOfStream_cfg_inp (s : State) : s.endOfStream.cfg = s.cfg ∧ s.endOfStream.inp = s.inp := by
  obtain h | h := endOfStream_cases s <;> rw [h]
  · exact ⟨rfl, rfl⟩
  · exact ⟨rfl, rfl⟩

theorem exec_cfg_inp {i : Instr} (h : exec i s = .next t) : t.cfg = s.cfg ∧ t.inp = s.inp := by
  rw [exec_other_fields h]
  exact ⟨rfl, rfl⟩

theorem doDecStep_cfg_inp (h : doDecStep s = .next t) : t.cfg = s.cfg ∧ t.inp = s.inp := by
  obtain ⟨-, rfl⟩ | ⟨-, -, rfl⟩ | ⟨-, -, h⟩ := doDecStep_eq_next h
  · exact ⟨rfl, rfl⟩
  · exact endOfStream_cfg_inp s
  · obtain ⟨i, rest, -, h⟩ | ⟨k, -, rfl⟩ := runFetched_eq_next h
    · exact exec_cfg_inp h
    · exact ⟨rfl, rfl⟩

/-- A running decoder refuses DecLoad, the one transaction beside Reset that writes IN (42_opcode_decoder.md R170). -/
theorem not_run_of_doDecLoad_eq_next {stream : List Byte} (h : doDecLoad stream s = .next t) : s.dstate ≠ .run := by
  intro hrun
  obtain ⟨hreset, -⟩ := afterFirstReset_eq_next h
  cases ((decLoadStartsTheStream s stream hreset).2 (.inl hrun)).symm.trans h

end Stability

/-- Settles O28: EncodeFrame keeps the decoder's view and extends OUT, the decoder's transactions keep the encoder's view, and only
DecLoad, which does not run in RUN, writes IN. -/
theorem onlyResetReconfigures : Obligations.OnlyResetReconfigures := by
  intro tr s t htr h
  cases tr with
  | reset cfg => exact absurd rfl (htr cfg)
  | encodeFrame raster =>
    obtain rfl := doEncodeFrame_eq_next h
    have hsame := encodeFrame_sameDecoder s raster
    obtain ⟨hout, hframes⟩ := encodeFrame_extends_out raster s
    exact ⟨hsame.cfg_eq.symm, hout, hframes, fun _ => hsame.inp_eq.symm⟩
  | decLoad stream =>
    have hrun := not_run_of_doDecLoad_eq_next h
    obtain rfl := doDecLoad_eq_next h
    exact ⟨rfl, List.prefix_rfl, le_rfl, fun hr => absurd hr hrun⟩
  | decStep =>
    have hsame := doDecStep_sameEncoder h
    obtain ⟨hcfg, hinp⟩ := doDecStep_cfg_inp h
    exact ⟨hcfg, hsame.out_eq ▸ List.prefix_rfl, hsame.eframes_eq.le, fun _ => hinp⟩

/-! ### What a refused transaction met (70_reset_and_hazards.md R241, R242, 42_opcode_decoder.md R170) -/

section Refusals

variable {s : State} {r : Refusal}

theorem afterFirstReset_eq_refused {a : Result} (h : afterFirstReset s a = .refused r) :
    (r = .beforeReset ∧ s.resetDone = false) ∨ a = .refused r := by
  unfold afterFirstReset at h
  split at h
  · exact .inr h
  · exact .inl ⟨(Host.Outcome.refused.inj h).symm, Bool.eq_false_of_not_eq_true ‹_›⟩

theorem doReset_eq_refused {cfg : Cfg} (h : doReset cfg s = .refused r) : r = .illegalConfig ∧ ¬ cfg.legal := by
  unfold doReset at h
  split at h
  · cases h
  · exact ⟨(Host.Outcome.refused.inj h).symm, ‹_›⟩

theorem doEncodeFrame_eq_refused {raster : List Byte} (h : doEncodeFrame raster s = .refused r) :
    r = .beforeReset ∧ s.resetDone = false :=
  (afterFirstReset_eq_refused h).resolve_right nofun

theorem doDecLoad_eq_refused {stream : List Byte} (h : doDecLoad stream s = .refused r) :
    (r = .beforeReset ∧ s.resetDone = false) ∨ (r = .decoderBusy ∧ (s.dstate = .run ∨ s.dstate = .fault)) := by
  refine (afterFirstReset_eq_refused h).imp_right fun hbusy => ?_
  cases hd : s.dstate with
  | idle | done => rw [hd] at hbusy; cases hbusy
  | run => rw [hd] at hbusy; exact ⟨(Host.Outcome.refused.inj hbusy).symm, .inl rfl⟩
  | fault => rw [hd] at hbusy; exact ⟨(Host.Outcome.refused.inj hbusy).symm, .inr rfl⟩

theorem doDecStep_eq_refused (h : doDecStep s = .refused r) : r = .beforeReset ∧ s.resetDone = false := by
  refine (afterFirstReset_eq_refused h).resolve_right ?_
  obtain ⟨t, ht⟩ := runFetched_total s s.fetch
  rw [ht]
  split_ifs <;> nofun

/-- The three refusals of a transaction, each under its own name. -/
theorem runTransaction_eq_refused {tr : Transaction} (h : runTransaction tr s = .refused r) :
    (r = .beforeReset ∧ s.resetDone = false) ∨
    (r = .illegalConfig ∧ ∃ cfg, tr = .reset cfg ∧ ¬ cfg.legal) ∨
    (r = .decoderBusy ∧ (∃ stream, tr = .decLoad stream) ∧ (s.dstate = .run ∨ s.dstate = .fault)) := by
  cases tr with
  | reset cfg =>
    obtain ⟨hr, hcfg⟩ := doReset_eq_refused h
    exact .inr (.inl ⟨hr, cfg, rfl, hcfg⟩)
  | encodeFrame raster => exact .inl (doEncodeFrame_eq_refused h)
  | decLoad stream =>
    obtain hfirst | ⟨hr, hd⟩ := doDecLoad_eq_refused h
    · exact .inl hfirst
    · exact .inr (.inr ⟨hr, ⟨stream, rfl⟩, hd⟩)
  | decStep => exact .inl (doDecStep_eq_refused h)

end Refusals

/-- Settles O31: the step is the host's oldest transaction, or a DecStep, which only a missing Reset refuses. -/
theorem refusalsAreTheSpecs : Obligations.RefusalsAreTheSpecs := by
  intro s r h
  cases hq : s.hostQueue with
  | nil =>
    rw [step_of_queue_nil hq] at h
    exact .inl (doDecStep_eq_refused h)
  | cons tr ts =>
    rw [step_of_queue_cons hq] at h
    obtain hfirst | ⟨hr, cfg, rfl, hcfg⟩ | ⟨hr, ⟨stream, rfl⟩, hd⟩ := runTransaction_eq_refused h
    · exact .inl hfirst
    · exact .inr (.inl ⟨hr, cfg, ts, rfl, hcfg⟩)
    · exact .inr (.inr ⟨hr, ⟨stream, ts, rfl⟩, hd⟩)

/-! ### Reset, and the state before the first one (70_reset_and_hazards.md R240 to R242) -/

section ResetCases

variable {cfg : Cfg} {s : State}

theorem doReset_of_legal (h : cfg.legal) (s : State) :
    doReset cfg s = .next (State.afterReset cfg (s.resetCount + 1) s.hostQueue) := if_pos h

theorem doReset_of_not_legal (h : ¬ cfg.legal) (s : State) : doReset cfg s = .refused .illegalConfig := if_neg h

theorem afterFirstReset_before (h : s.resetDone = false) (a : Result) : afterFirstReset s a = .refused .beforeReset :=
  if_neg (Bool.not_eq_true _ ▸ h)

/-- No block is written after a Reset, so each of the FB blocks reads as its free byte (10_state.md R31, R32). -/
theorem afterReset_dmRead {k a : Nat} {q : List Transaction} (h : a < cfg.fb) :
    (State.afterReset cfg k q).dmRead a = some (Config.freeByte k a) := if_pos h

end ResetCases

/-- Settles O24: every field is that of the reset state, and DM's list is empty. -/
theorem resetSetsEveryField : Obligations.ResetSetsEveryField := fun _ s hcfg =>
  ⟨_, doReset_of_legal hcfg s, rfl, rfl, rfl, rfl, rfl, rfl, rfl, rfl, rfl, rfl, rfl, rfl, rfl, rfl, rfl, rfl, rfl, rfl, rfl,
    fun _ => afterReset_dmRead⟩

/-- Settles O25: the two branches of Reset, and the worked examples under each layout. -/
theorem onlyLegalConfigurationsReset : Obligations.OnlyLegalConfigurationsReset := by
  refine ⟨fun cfg s hcfg => ⟨_, doReset_of_legal hcfg s⟩, fun cfg s hcfg => doReset_of_not_legal hcfg s, ?_⟩
  refine ⟨?_, ?_, ?_, ?_⟩ <;> rintro (_ | _) <;> decide

/-- Settles O26: the three transactions pass the same check, which Reset does not and whose flag it sets. -/
theorem nothingBeforeTheFirstReset : Obligations.NothingBeforeTheFirstReset := fun s hs =>
  ⟨fun _ => afterFirstReset_before hs _, fun _ => afterFirstReset_before hs _, afterFirstReset_before hs _,
    fun _ hcfg => ⟨_, doReset_of_legal hcfg s, rfl⟩⟩

end Sys2Proof.Machine

namespace Sys2Proof.Machine

/-! ### Steps of a running decoder (42_opcode_decoder.md R171, R185) -/

section RunOfSteps

variable {s t u : State}

theorem run_zero (s : State) : Host.Core.run core 0 s = .next s := rfl

/-- A run takes its first step and goes on from there. -/
theorem run_succ {n : Nat} (h : step s = .next u) : Host.Core.run core (n + 1) s = Host.Core.run core n u := by
  have hcore : core.step s = .next u := h
  simp only [Host.Core.run, hcore]

/-- A run that reaches a state goes on from that state. -/
theorem run_add {m : Nat} (n : Nat) (h : Host.Core.run core m s = .next u) :
    Host.Core.run core (m + n) s = Host.Core.run core n u := by
  induction m generalizing s with
  | zero =>
    obtain rfl := Host.Outcome.next.inj h
    rw [Nat.zero_add]
  | succ m ih =>
    rw [Nat.add_right_comm]
    match hstep : step s with
    | .next v => rw [run_succ hstep] at h ⊢; exact ih h
    | .fault e | .refused e =>
      have hcore : core.step s = _ := hstep
      simp only [Host.Core.run, hcore] at h
      cases h

theorem step_eq_doDecStep (h : s.hostQueue = []) : step s = doDecStep s := step_of_queue_nil h

end RunOfSteps

/-- The decoder runs, and every step is a DecStep. -/
structure Decoding (s : State) : Prop where
  reset_done : s.resetDone = true
  queue_nil : s.hostQueue = []
  running : s.dstate = .run

/-- The two states agree in everything but the decoder's counters, the trace and DM. -/
def Moved (s t : State) : Prop :=
  t = { s with cur := t.cur, blk := t.blk, dframes := t.dframes, trace := t.trace, dm := t.dm }

section Moving

variable {s t u : State}

theorem Moved.refl (s : State) : Moved s s := rfl

theorem Moved.trans (h : Moved s u) (h' : Moved u t) : Moved s t := by
  rw [Moved] at h' ⊢
  rw [h', h]

theorem Moved.cfg_eq (h : Moved s t) : t.cfg = s.cfg := by rw [h]

theorem Moved.inp_eq (h : Moved s t) : t.inp = s.inp := by rw [h]

theorem Moved.dfault_eq (h : Moved s t) : t.dfault = s.dfault := by rw [h]

theorem Moved.decoding (h : Moved s t) (hs : Decoding s) : Decoding t := by
  obtain ⟨hreset, hqueue, hrun⟩ := hs
  rw [h]
  exact ⟨hreset, hqueue, hrun⟩

theorem Effect.moved {len adv base : Nat} {data : List Byte} {events : List Event}
    (h : Effect s t len adv base data events) : Moved s t := h.rest_eq

/-- A step of a running decoder stops it, or goes on with the cursor further inside IN. -/
theorem Decoding.step_cases (hs : Decoding s) (hcur : s.cur ≤ s.inp.length) :
    ∃ t, step s = .next t ∧
      (t.dstate ≠ .run ∨ (Moved s t ∧ s.cur < t.cur ∧ t.cur ≤ t.inp.length)) := by
  rw [step_eq_doDecStep hs.queue_nil]
  by_cases hend : s.cur = s.inp.length
  · refine ⟨_, doDecStep_at_end hs.reset_done hs.running hend, .inl ?_⟩
    obtain h | h := endOfStream_cases s <;> rw [h] <;> nofun
  · have hbytes : s.inp.drop s.cur ≠ [] := by simpa using hcur.lt_of_ne hend
    rw [doDecStep_fetches hs.reset_done hs.running hbytes]
    obtain ⟨t, ht⟩ := runFetched_total s s.fetch
    refine ⟨t, ht, ?_⟩
    obtain ⟨i, rest, -, ht⟩ | ⟨k, -, rfl⟩ := runFetched_eq_next ht
    · obtain ⟨k, rfl⟩ | ⟨n, -, rfl⟩ | ⟨hneed, -, -, heff⟩ := exec_eq_next ht
      · exact .inl nofun
      · exact .inl nofun
      · have hlen := byteLength_pos i
        refine .inr ⟨heff.moved, ?_, ?_⟩
        · rw [heff.cur_eq]; omega
        · rwa [heff.cur_eq, heff.moved.inp_eq]
    · exact .inl nofun

/-- By induction on the bytes left: a step that does not stop the decoder leaves fewer. -/
theorem Decoding.leaves_run (hs : Decoding s) (hcur : s.cur ≤ s.inp.length) :
    ∃ n t, n ≤ s.inp.length - s.cur + 1 ∧ Host.Core.run core n s = .next t ∧ t.dstate ≠ .run := by
  induction hleft : s.inp.length - s.cur using Nat.strong_induction_on generalizing s with
  | _ left ih =>
    obtain ⟨u, hstep, hstop | ⟨hmoved, hlt, hle⟩⟩ := hs.step_cases hcur
    · exact ⟨1, u, by omega, run_succ hstep, hstop⟩
    · have hinp : u.inp.length = s.inp.length := congrArg List.length hmoved.inp_eq
      obtain ⟨n, t, hn, hrun, hstop⟩ := ih (u.inp.length - u.cur) (by omega) (hmoved.decoding hs) hle rfl
      exact ⟨n + 1, t, by omega, (run_succ hstep).trans hrun, hstop⟩

end Moving

/-- Settles O22: every step either leaves RUN or brings the cursor nearer to the end of IN. -/
theorem decoderTerminates : Obligations.DecoderTerminates := fun _ hreset hqueue hrun =>
  Decoding.leaves_run ⟨hreset, hqueue, hrun⟩

end Sys2Proof.Machine

namespace Sys2Proof.Machine

/-! ### What a run sequence expands to (40_delta_and_collapse.md R110(d)) -/

section Expansion

theorem expandRuns_append (rs rs' : List Run) (prev : List Byte) :
    expandRuns (rs ++ rs') prev = expandRuns rs prev ++ expandRuns rs' (prev.drop (rs.map Run.count).sum) := by
  induction rs generalizing prev with
  | nil => rfl
  | cons r rs ih =>
    cases r with
    | skip c | rep v c | lit b =>
      simp only [List.cons_append, expandRuns, ih, List.append_assoc, List.drop_drop, List.map_cons, List.sum_cons, Run.count]

theorem expandRuns_map_lit (d prev : List Byte) : expandRuns (d.map .lit) prev = d := by
  induction d generalizing prev with
  | nil => rfl
  | cons b d ih => rw [List.map_cons, expandRuns, ih]

theorem expandRuns_map_skip (ns : List Nat) (prev : List Byte) : expandRuns (ns.map .skip) prev = prev.take ns.sum := by
  induction ns generalizing prev with
  | nil => rfl
  | cons n ns ih => rw [List.map_cons, expandRuns, ih, List.sum_cons, List.take_add]

theorem expandRuns_map_rep (v : Byte) (ns : List Nat) (prev : List Byte) :
    expandRuns (ns.map (.rep v)) prev = List.replicate ns.sum v := by
  induction ns generalizing prev with
  | nil => rfl
  | cons n ns ih => rw [List.map_cons, expandRuns, ih, List.sum_cons, List.replicate_add]

/-- A group of identical literals expands to its bytes, whether it becomes Repeat runs or not. -/
theorem expandRuns_mergedLit (m : Nat) (v : Byte) (prev : List Byte) : expandRuns (mergedLit m v) prev = List.replicate m v := by
  unfold mergedLit
  split_ifs
  · rw [← List.map_replicate, expandRuns_map_lit]
  · rw [expandRuns_map_rep, chunks_sum]

theorem expandRuns_passBScan (m : Nat) (v : Byte) (rs : List Run) (prev : List Byte) :
    expandRuns (passBScan m v rs) prev = List.replicate m v ++ expandRuns rs (prev.drop m) := by
  induction rs generalizing m v prev with
  | nil => rw [passBScan, expandRuns_mergedLit, expandRuns, List.append_nil]
  | cons r rs ih =>
    cases r with
    | lit b =>
      rw [passBScan]
      split_ifs with hb
      · rw [ih, List.replicate_succ', List.append_assoc, expandRuns, List.drop_drop, hb, List.singleton_append]
      · rw [expandRuns_append, expandRuns_mergedLit, sum_count_mergedLit, ih, expandRuns, List.replicate_one,
          List.singleton_append]
    | skip c | rep w c =>
      rw [passBScan, expandRuns_append, expandRuns_mergedLit, sum_count_mergedLit, expandRuns, expandRuns, ih,
        List.replicate_zero, List.nil_append, List.drop_zero]

/-- Pass B keeps what the sequence expands to. -/
theorem expandRuns_passB (rs : List Run) (prev : List Byte) : expandRuns (passB rs) prev = expandRuns rs prev := by
  rw [passB, expandRuns_passBScan, List.replicate_zero, List.nil_append, List.drop_zero]

/-- A merged group of Skips expands to the bytes it skips; a lone one is a literal of its own byte (R105). -/
theorem expandRuns_mergedSkip {skipped : List Byte} {b : Byte} (hlone : skipped.length = 1 → skipped = [b]) (prev : List Byte) :
    expandRuns (mergedSkip skipped.length b) (skipped ++ prev) = skipped := by
  unfold mergedSkip
  split_ifs with hm
  · rw [expandRuns, expandRuns, ← hlone hm]
  · rw [expandRuns_map_skip, chunks_sum, List.take_left]

end Expansion

/-! ### A classified sequence against the previous raster (40_delta_and_collapse.md R100) -/

/-- The elements give `cur` over the bytes `prev`: a Skip keeps a byte of `prev`, a literal replaces it if there is one. -/
inductive Reproduces : List Elem → List Byte → List Byte → Prop
  | nil (prev : List Byte) : Reproduces [] prev []
  | skip {es : List Elem} {prev cur : List Byte} (b : Byte) (h : Reproduces es prev cur) :
      Reproduces (.skip :: es) (b :: prev) (b :: cur)
  | lit {es : List Elem} {prev cur : List Byte} (b : Byte) (h : Reproduces es (prev.drop 1) cur) :
      Reproduces (.lit b :: es) prev (b :: cur)

section Reproducing

variable {prev cur : List Byte} {es : List Elem} {s : State}

theorem reproduces_map_lit (cur prev : List Byte) : Reproduces (cur.map .lit) prev cur := by
  induction cur generalizing prev with
  | nil => exact .nil prev
  | cons c cur ih => exact .lit c (ih _)

theorem reproduces_classifyAgainst (h : prev.length = cur.length) (more : List Byte) :
    Reproduces (classifyAgainst prev cur) (prev ++ more) cur := by
  induction prev generalizing cur with
  | nil =>
    obtain rfl := List.length_eq_zero_iff.mp h.symm
    exact .nil _
  | cons p prev ih =>
    cases cur with
    | nil => cases h
    | cons c cur =>
      have htail := ih (Nat.succ.inj h)
      rw [classifyAgainst]
      split_ifs with hpc
      · exact hpc ▸ .skip p htail
      · exact .lit c htail

/-- What Classify answers gives the raster over every memory that starts with the previous raster, if there is one. -/
theorem classify_reproduces (hes : classify s cur = .ok es) {shown : List Byte}
    (hshown : s.prevValid = true → s.prev <+: shown) : Reproduces es shown cur := by
  cases hv : s.prevValid with
  | false =>
    rw [classify_first hv] at hes
    cases hes
    exact reproduces_map_lit cur shown
  | true =>
    obtain ⟨more, rfl⟩ := hshown hv
    by_cases hlen : s.prev.length = cur.length
    · rw [classify_against hv hlen] at hes
      cases hes
      exact reproduces_classifyAgainst hlen more
    · rw [classify_lengthMismatch hv hlen] at hes
      cases hes

/-- The scan of Pass A with the bytes `skipped` pending: the pending group and the elements left give their bytes. -/
theorem Reproduces.expandRuns_passAScan (h : Reproduces es prev cur) {skipped : List Byte} {b : Byte}
    (hlone : skipped.length = 1 → skipped = [b]) :
    expandRuns (passAScan skipped.length b (es.zip cur)) (skipped ++ prev) = skipped ++ cur := by
  induction h generalizing skipped b with
  | nil prev => rw [List.zip_nil_left, passAScan, expandRuns_mergedSkip hlone, List.append_nil]
  | skip c h ih =>
    have hlone' : (skipped ++ [c]).length = 1 → skipped ++ [c] = [c] := by simp
    have hgrown := ih hlone'
    rw [List.length_append, List.length_singleton, List.append_assoc, List.append_assoc] at hgrown
    rwa [List.zip_cons_cons, passAScan]
  | lit v h ih =>
    have hrest := ih (skipped := []) (b := 0) nofun
    rw [List.length_nil, List.nil_append, List.nil_append] at hrest
    rw [List.zip_cons_cons, passAScan, expandRuns_append, expandRuns_mergedSkip hlone, sum_count_mergedSkip, List.drop_left,
      expandRuns, hrest]

theorem Reproduces.expandRuns_passA (h : Reproduces es prev cur) : expandRuns (passA es cur) prev = cur :=
  h.expandRuns_passAScan (skipped := []) nofun

end Reproducing

/-- Settles O39: both passes keep the number of blocks, Pass A's runs expand to the raster, and Pass B keeps the expansion. -/
theorem runsReproduceRaster : Obligations.RunsReproduceRaster := by
  intro s cur es hes
  refine ⟨?_, ?_⟩
  · rw [sum_count_passB, sum_count_passA (classify_length hes)]
  · rw [expandRuns_passB, (classify_reproduces hes fun _ => List.prefix_rfl).expandRuns_passA]

/-! ### The chunk limits (40_delta_and_collapse.md R110(b), (c)) -/

section ChunkLimits

variable {r : Run}

theorem runInBounds_mergedSkip {m : Nat} {b : Byte} (h : r ∈ mergedSkip m b) : runInBounds r = true := by
  unfold mergedSkip at h
  split_ifs at h
  · obtain rfl := List.mem_singleton.mp h
    rfl
  · obtain ⟨c, hc, rfl⟩ := List.mem_map.mp h
    exact runInBounds_skip.mpr (mem_chunks (by decide) hc)

theorem runInBounds_mergedLit {m : Nat} {v : Byte} (h : r ∈ mergedLit m v) : runInBounds r = true := by
  unfold mergedLit at h
  split_ifs at h
  · obtain ⟨-, rfl⟩ := List.mem_replicate.mp h
    rfl
  · obtain ⟨c, hc, rfl⟩ := List.mem_map.mp h
    exact runInBounds_rep.mpr (mem_chunks (by decide) hc)

theorem runInBounds_passAScan {m : Nat} {b : Byte} {es : List (Elem × Byte)} (h : r ∈ passAScan m b es) :
    runInBounds r = true := by
  induction es generalizing m b with
  | nil => exact runInBounds_mergedSkip h
  | cons e es ih =>
    obtain ⟨_ | v, c⟩ := e
    · exact ih h
    · rw [passAScan, List.mem_append, List.mem_cons] at h
      obtain h | rfl | h := h
      · exact runInBounds_mergedSkip h
      · rfl
      · exact ih h

/-- Pass B only adds runs inside the limits. -/
theorem runInBounds_passBScan {m : Nat} {v : Byte} {rs : List Run} (hrs : ∀ r ∈ rs, runInBounds r = true)
    (h : r ∈ passBScan m v rs) : runInBounds r = true := by
  induction rs generalizing m v with
  | nil => exact runInBounds_mergedLit h
  | cons r' rs ih =>
    obtain ⟨hr', htail⟩ := List.forall_mem_cons.mp hrs
    cases r' with
    | lit b =>
      rw [passBScan] at h
      split_ifs at h
      · exact ih htail h
      · exact (List.mem_append.mp h).elim runInBounds_mergedLit (ih htail)
    | skip c | rep w c =>
      rw [passBScan, List.mem_append, List.mem_cons] at h
      obtain h | rfl | h := h
      · exact runInBounds_mergedLit h
      · exact hr'
      · exact ih htail h

theorem runInBounds_passB_passA {es : List Elem} {cur : List Byte} (h : r ∈ passB (passA es cur)) : runInBounds r = true :=
  runInBounds_passBScan (fun _ => runInBounds_passAScan) h

end ChunkLimits

/-- Settles O40: chunks are in their limits, and a first frame is classified fully literal. -/
theorem runCountsInBounds : Obligations.RunCountsInBounds := by
  intro s cur es hes r hr
  refine ⟨runInBounds_passB_passA hr, ?_⟩
  rintro hv c rfl
  rw [classify_first hv] at hes
  cases hes
  exact skip_notMem_first_frame cur c hr

/-! ### Pass B on its own output (40_delta_and_collapse.md R110(f)) -/

section Idempotence

theorem passBScan_replicate_append (k m : Nat) (v : Byte) (rs : List Run) :
    passBScan k v (List.replicate m (.lit v) ++ rs) = passBScan (k + m) v rs := by
  induction m generalizing k with
  | zero => rfl
  | succ m ih => rw [List.replicate_succ, List.cons_append, passBScan, if_pos rfl, ih, Nat.add_right_comm, Nat.add_assoc]

theorem passB_skip_cons (c : Nat) (rs : List Run) : passB (.skip c :: rs) = .skip c :: passB rs := passBScan_skip 0 0 [] rs c

theorem passB_rep_cons (w : Byte) (c : Nat) (rs : List Run) : passB (.rep w c :: rs) = .rep w c :: passB rs := by
  rw [passB, passBScan, mergedLit_zero, List.nil_append, passB]

/-- A pending group ends where no literal of its byte follows. -/
theorem passBScan_of_head?_ne {v : Byte} {rs : List Run} (h : rs.head? ≠ some (.lit v)) (m : Nat) :
    passBScan m v rs = mergedLit m v ++ passB rs := by
  cases rs with
  | nil => rw [passBScan, passB, passBScan, mergedLit_zero, List.append_nil]
  | cons r rs =>
    cases r with
    | lit b =>
      have hb : b ≠ v := by rintro rfl; exact h rfl
      rw [passBScan, if_neg hb, passB, passBScan_zero 0 b, passBScan, if_pos rfl]
    | skip c => rw [passBScan, passB_skip_cons, passBScan_zero v 0, passB]
    | rep w c => rw [passBScan, passB_rep_cons, passBScan_zero v 0, passB]

theorem passB_map_rep_append (v : Byte) (ns : List Nat) (rs : List Run) :
    passB (ns.map (.rep v) ++ rs) = ns.map (.rep v) ++ passB rs := by
  induction ns with
  | nil => rfl
  | cons n ns ih => rw [List.map_cons, List.cons_append, passB_rep_cons, ih, List.cons_append]

/-- Pass B leaves a merged group as it is where no literal of its byte follows. -/
theorem passB_mergedLit_append {v : Byte} {rs : List Run} (h : rs.head? ≠ some (.lit v)) (m : Nat) :
    passB (mergedLit m v ++ rs) = mergedLit m v ++ passB rs := by
  rw [← passBScan_of_head?_ne h m]
  conv_lhs => unfold mergedLit
  split_ifs with hm
  · rw [passB, passBScan_zero 0 v, passBScan_replicate_append, Nat.zero_add]
  · rw [passB_map_rep_append, passBScan_of_head?_ne h m, mergedLit, if_neg hm]

theorem lit_notMem_mergedLit {m : Nat} {b v : Byte} (hv : v ≠ b) : .lit v ∉ mergedLit m b := by
  unfold mergedLit
  split_ifs
  · simp [hv]
  · simp

theorem mergedLit_ne_nil {m : Nat} (hm : 1 ≤ m) (b : Byte) : mergedLit m b ≠ [] := by
  intro hnil
  have hsum := sum_count_mergedLit m b
  rw [hnil] at hsum
  exact absurd hm (by rw [← hsum]; decide)

theorem head?_mergedLit_append {m : Nat} {b v : Byte} (hm : 1 ≤ m) (hv : v ≠ b) (rs : List Run) :
    (mergedLit m b ++ rs).head? ≠ some (.lit v) := by
  rw [List.head?_append_of_ne_nil _ (mergedLit_ne_nil hm b)]
  exact fun hhead => lit_notMem_mergedLit hv (List.mem_of_mem_head? hhead)

/-- The scan of a pending group of `b` starts with that group, so not with a literal of another byte. -/
theorem head?_passBScan {m : Nat} {b v : Byte} (hm : 1 ≤ m) (hv : v ≠ b) (rs : List Run) :
    (passBScan m b rs).head? ≠ some (.lit v) := by
  induction rs generalizing m with
  | nil => simpa [passBScan] using head?_mergedLit_append hm hv []
  | cons r rs ih =>
    cases r with
    | lit c =>
      rw [passBScan]
      split_ifs
      · exact ih (Nat.le_succ_of_le hm)
      · exact head?_mergedLit_append hm hv _
    | skip c | rep w c => exact head?_mergedLit_append hm hv _

theorem passB_passBScan (m : Nat) (v : Byte) (rs : List Run) : passB (passBScan m v rs) = passBScan m v rs := by
  induction rs generalizing m v with
  | nil => simpa [passBScan, passB, mergedLit_zero] using passB_mergedLit_append (v := v) (rs := []) nofun m
  | cons r rs ih =>
    cases r with
    | lit b =>
      rw [passBScan]
      split_ifs with hb
      · exact ih _ _
      · rw [passB_mergedLit_append (head?_passBScan Nat.le.refl (Ne.symm hb) rs), ih]
    | skip c => rw [passBScan, passB_mergedLit_append (by simp), passB_skip_cons, ih]
    | rep w c => rw [passBScan, passB_mergedLit_append (by simp), passB_rep_cons, ih]

end Idempotence

/-- Settles O41: in Pass B's output each group is followed by another byte's or by a Skip or Repeat run, and stays as it is. -/
theorem passBIsIdempotent : Obligations.PassBIsIdempotent := passB_passBScan 0 0

end Sys2Proof.Machine

namespace Sys2Proof.Machine

/-! ### An identical frame (41_opcode_encoder.md R147(b)) -/

section IdenticalFrame

theorem classifyAgainst_self (prev : List Byte) : classifyAgainst prev prev = List.replicate prev.length .skip := by
  induction prev with
  | nil => rfl
  | cons p prev ih => rw [classifyAgainst, if_pos rfl, ih, List.length_cons, List.replicate_succ]

/-- Pass B passes Skip runs through. -/
theorem passB_map_skip (ns : List Nat) : passB (ns.map .skip) = ns.map .skip := by
  induction ns with
  | nil => rfl
  | cons n ns ih => rw [List.map_cons, passB_skip_cons, ih]

theorem select_skip_long {n : Nat} (hn : 8 ≤ n) (rest : List Run) : select (.skip n :: rest) = .longSkip n :: select rest :=
  (selectAtSkipRun n rest).2.2.2 hn

theorem select_replicate_skip {n : Nat} (hn : 8 ≤ n) (k : Nat) (rest : List Run) :
    select (List.replicate k (.skip n) ++ rest) = List.replicate k (.longSkip n) ++ select rest := by
  induction k with
  | zero => rfl
  | succ k ih => rw [List.replicate_succ, List.cons_append, select_skip_long hn, ih, List.replicate_succ, List.cons_append]

/-- The walk at the last chunk of a merged Skip run: a SkipCopy without data up to 7 blocks, a LongSkip from 8 on. -/
theorem select_remainder (m : Nat) :
    select (if m = 0 then [] else [.skip m]) = if m = 0 then [] else if m ≤ 7 then [.skipCopy m []] else [.longSkip m] := by
  split_ifs with hm h7
  · rfl
  · exact (selectAtSkipRun m []).2.1 h7 rfl
  · exact select_skip_long (Nat.not_le.mp h7) []

theorem frameInstrs_identical {prev : List Byte} (h : 2 ≤ prev.length) :
    frameInstrs (classifyAgainst prev prev) prev =
      List.replicate (prev.length / 256) (.longSkip 256) ++
        (if prev.length % 256 = 0 then [] else if prev.length % 256 ≤ 7 then [.skipCopy (prev.length % 256) []]
          else [.longSkip (prev.length % 256)]) := by
  rw [frameInstrs, classifyAgainst_self, passA_replicate_skip, mergedSkip_eq_chunked (by omega), chunked_eq, passB_map_skip,
    ← chunked_eq, chunked, select_replicate_skip (by decide), select_remainder]

end IdenticalFrame

/-- Settles O51: the frame is classified as Skips only, which make one merged run, and its chunks are walked one by one. -/
theorem identicalFrameEmitsOnlySkips : Obligations.IdenticalFrameEmitsOnlySkips := by
  intro s hready hvalid htwo hfit
  have hes : classify s s.prev = .ok (classifyAgainst s.prev s.prev) := classify_against hvalid rfl
  have hadv : advSum (frameInstrs (classifyAgainst s.prev s.prev) s.prev) = s.prev.length :=
    advSum_frameInstrs (classify_length hes)
  rw [encodeFrame_classified hready hes, padAndCommit_fits (hadv ▸ hfit), hadv, frameInstrs_identical htwo, commit_out]

/-! ### The count boundary (41_opcode_encoder.md R147(d)) -/

section CountBoundary

/-- From 3 to 64 identical literals make one Repeat run. -/
theorem passB_replicate_lit_one_chunk {m : Nat} (h3 : 3 ≤ m) (h64 : m < 64) (v : Byte) :
    passB (List.replicate m (.lit v)) = [.rep v m] := by
  rw [passB_replicate_lit, mergedLit_eq_chunked h3, chunked, Nat.div_eq_of_lt h64, Nat.mod_eq_of_lt h64, if_neg (by omega)]
  rfl

/-- A short Repeat run takes RepeatSkip, with or without a Skip run after it. -/
theorem exists_select_rep_short {n : Nat} (hn : n ≤ 7) (v : Byte) (rest : List Run) :
    ∃ s after, select (.rep v n :: rest) = .repeatSkip n s v :: select after := by
  cases hskip : shortSkip rest with
  | none => exact ⟨0, rest, by rw [select_cons, selectOne, selectRep, if_pos hn, hskip]⟩
  | some p => exact ⟨p.1, p.2, by rw [select_cons, selectOne, selectRep, if_pos hn, hskip]⟩

/-- A Literal-run of at most 7 takes CopySkip, with or without a Skip run after it. -/
theorem exists_select_literals_short {d : List Byte} {rest : List Run} (h1 : 1 ≤ d.length) (h7 : d.length ≤ 7)
    (hend : startsWithLit rest = false) : ∃ s after, select (d.map .lit ++ rest) = .copySkip d s :: select after := by
  have hrun : literalRun (d.map .lit ++ rest) = d := literalRun_short d (by omega) hend
  rw [select_literals h1, selectLit, drop_literalRun hrun, hrun, if_pos h7]
  cases shortSkip rest with
  | none => exact ⟨0, rest, rfl⟩
  | some p => exact ⟨p.1, p.2, rfl⟩

end CountBoundary

/-- Settles O52: each count is on its side of the boundary of its walk rule. -/
theorem countBoundaryPicksTheForm : Obligations.CountBoundaryPicksTheForm := by
  refine ⟨fun v rest => ?_, fun v rest => ?_, fun d rest hd hend => ?_, fun d rest hd hend => ?_,
    fun k d rest hk hd hend => ?_⟩
  · rw [passB_replicate_lit_one_chunk (by decide) (by decide)]
    exact (selectAtRepeatRun v 8 rest).2.2 Nat.le.refl
  · rw [passB_replicate_lit_one_chunk (by decide) (by decide)]
    exact exists_select_rep_short Nat.le.refl v rest
  · exact (selectAtLiteralRun d rest).2.2 hd.ge (by omega) (.inr hend)
  · exact exists_select_literals_short (by omega) hd.le hend
  · rw [List.cons_append, select_cons, selectOne, selectSkip_absorbs hk hd.le hend]

end Sys2Proof.Machine

namespace Sys2Proof.Machine

/-! ### The bytes the blocks hold after an instruction (30_encoding.md R82)

`overlay` is tied to the encoder by `overlayAll_select` and to the decoder by `Effect.blocksFrom_eq`. -/

/-- The bytes of the blocks the instruction advances over, given the bytes they held. -/
def overlay (i : Instr) (shown : List Byte) : List Byte :=
  shown.take i.skipBefore ++ i.putBytes ++ (shown.drop (i.skipBefore + i.put)).take i.skipAfter

/-- The bytes of the blocks the instructions advance over, given the bytes they held. -/
def overlayAll : List Instr → List Byte → List Byte
  | [], _ => []
  | i :: is, shown => overlay i shown ++ overlayAll is (shown.drop i.adv)

section Overlay

variable (d shown : List Byte) (n s : Nat) (v : Byte)

@[simp] theorem overlay_longSkip : overlay (.longSkip n) shown = shown.take n := by
  simp [overlay, Instr.skipBefore, Instr.putBytes, Instr.skipAfter]

@[simp] theorem overlay_skipCopy : overlay (.skipCopy s d) shown = shown.take s ++ d := by
  simp [overlay, Instr.skipBefore, Instr.putBytes, Instr.skipAfter]

@[simp] theorem overlay_longCopy : overlay (.longCopy d) shown = d := by
  simp [overlay, Instr.skipBefore, Instr.putBytes, Instr.skipAfter]

@[simp] theorem overlay_copySkip : overlay (.copySkip d s) shown = d ++ (shown.drop d.length).take s := by
  simp [overlay, Instr.skipBefore, Instr.putBytes, Instr.put, Instr.skipAfter]

@[simp] theorem overlay_repeatByte : overlay (.repeatByte n v) shown = List.replicate n v := by
  simp [overlay, Instr.skipBefore, Instr.putBytes, Instr.skipAfter]

@[simp] theorem overlay_repeatSkip : overlay (.repeatSkip n s v) shown = List.replicate n v ++ (shown.drop n).take s := by
  simp [overlay, Instr.skipBefore, Instr.putBytes, Instr.put, Instr.skipAfter]

theorem overlayAll_append (is js : List Instr) :
    overlayAll (is ++ js) shown = overlayAll is shown ++ overlayAll js (shown.drop (advSum is)) := by
  induction is generalizing shown with
  | nil => rfl
  | cons i is ih => rw [List.cons_append, overlayAll, ih, overlayAll, advSum_cons, List.drop_drop, List.append_assoc]

end Overlay

/-! ### The walk keeps what the runs expand to (41_opcode_encoder.md R132 to R140) -/

section OverlayOfSelect

variable (prev : List Byte)

/-- A Literal-run at the head expands to its own bytes. -/
theorem expandRuns_literalRun (rs : List Run) :
    expandRuns rs prev = literalRun rs ++ expandRuns (rs.drop (literalRun rs).length) (prev.drop (literalRun rs).length) := by
  conv_lhs => rw [← literalRun_append_drop rs]
  rw [expandRuns_append, expandRuns_map_lit, sum_count_map_lit]

theorem expandRuns_shortSkip {rs after : List Run} {s : Nat} (h : shortSkip rs = some (s, after)) :
    expandRuns rs prev = prev.take s ++ expandRuns after (prev.drop s) := by
  obtain ⟨-, rfl⟩ := shortSkip_some h
  rfl

theorem overlay_selectRep (v : Byte) (n : Nat) (rest : List Run) :
    overlay (selectRep v n rest).1 prev ++ expandRuns (selectRep v n rest).2 (prev.drop (selectRep v n rest).1.adv) =
      List.replicate n v ++ expandRuns rest (prev.drop n) := by
  unfold selectRep
  split_ifs
  · cases hskip : shortSkip rest with
    | none => simp
    | some p => simp [expandRuns_shortSkip _ hskip]
  · simp

theorem overlay_selectSkip (s : Nat) (rest : List Run) :
    overlay (selectSkip s rest).1 prev ++ expandRuns (selectSkip s rest).2 (prev.drop (selectSkip s rest).1.adv) =
      prev.take s ++ expandRuns rest (prev.drop s) := by
  unfold selectSkip
  split_ifs
  · rw [expandRuns_literalRun _ rest]; simp
  · simp
  · simp

theorem overlay_selectLit (rs : List Run) :
    overlay (selectLit rs).1 prev ++ expandRuns (selectLit rs).2 (prev.drop (selectLit rs).1.adv) = expandRuns rs prev := by
  rw [expandRuns_literalRun _ rs]
  unfold selectLit
  split_ifs
  · cases hskip : shortSkip (rs.drop (literalRun rs).length) with
    | none => simp
    | some p => simp [expandRuns_shortSkip _ hskip]
  · simp

theorem overlay_selectOne (r : Run) (rest : List Run) :
    overlay (selectOne r rest).1 prev ++ expandRuns (selectOne r rest).2 (prev.drop (selectOne r rest).1.adv) =
      expandRuns (r :: rest) prev := by
  cases r with
  | rep v n => exact overlay_selectRep prev v n rest
  | skip s => exact overlay_selectSkip prev s rest
  | lit b => exact overlay_selectLit prev (.lit b :: rest)

/-- The selected instructions leave what the runs expand to. -/
theorem overlayAll_select (rs : List Run) : overlayAll (select rs) prev = expandRuns rs prev := by
  induction h : rs.length using Nat.strong_induction_on generalizing rs prev with
  | _ n ih =>
    cases rs with
    | nil => rfl
    | cons r rest =>
      have hlt : (selectOne r rest).2.length < n := h ▸ Nat.lt_succ_of_le (selectOne_length r rest)
      rw [select_cons, overlayAll, ih _ hlt _ _ rfl, overlay_selectOne]

/-- The instructions of a classified raster leave the raster over a memory that shows the previous one. -/
theorem Reproduces.overlayAll_frameInstrs {es : List Elem} {prev raster : List Byte} (h : Reproduces es prev raster) :
    overlayAll (frameInstrs es raster) prev = raster := by
  rw [frameInstrs, overlayAll_select, expandRuns_passB, h.expandRuns_passA]

end OverlayOfSelect

/-! ### Blocks of DM (10_state.md R31) -/

/-- The `n` blocks of DM from `a` on. -/
def blocksFrom (s : State) (a n : Nat) : List Byte := (List.range' a n).map s.dmByte

section Blocks

variable {s t : State}

theorem dmBlocks_eq_blocksFrom (s : State) (n : Nat) : dmBlocks s n = blocksFrom s 0 n := by
  rw [dmBlocks, blocksFrom, List.range_eq_range']

theorem blocksFrom_length (s : State) (a n : Nat) : (blocksFrom s a n).length = n := by
  rw [blocksFrom, List.length_map, List.length_range']

theorem blocksFrom_add (s : State) (a m n : Nat) : blocksFrom s a (m + n) = blocksFrom s a m ++ blocksFrom s (a + m) n := by
  rw [blocksFrom, blocksFrom, blocksFrom, ← List.map_append, List.range'_append_1]

theorem take_blocksFrom (s : State) (a m n : Nat) : (blocksFrom s a (m + n)).take m = blocksFrom s a m := by
  rw [blocksFrom_add, List.take_left' (blocksFrom_length s a m)]

theorem drop_blocksFrom (s : State) (a m n : Nat) : (blocksFrom s a (m + n)).drop m = blocksFrom s (a + m) n := by
  rw [blocksFrom_add, List.drop_left' (blocksFrom_length s a m)]

theorem blocksFrom_congr {a n : Nat} (h : ∀ b, a ≤ b → b < a + n → t.dmByte b = s.dmByte b) :
    blocksFrom t a n = blocksFrom s a n := by
  refine List.map_congr_left fun b hb => ?_
  obtain ⟨hle, hlt⟩ := List.mem_range'_1.mp hb
  exact h b hle hlt

/-- Blocks that hold the bytes `d` one by one hold `d`. -/
theorem blocksFrom_eq_of_getD {a : Nat} {d : List Byte}
    (h : ∀ b, a ≤ b → b < a + d.length → t.dmByte b = d.getD (b - a) 0) : blocksFrom t a d.length = d := by
  refine List.ext_getElem (blocksFrom_length t a _) fun k hk hk' => ?_
  simp only [blocksFrom, List.getElem_map, List.getElem_range'_1]
  rw [h (a + k) (by omega) (by omega), Nat.add_sub_cancel_left, List.getD_eq_getElem _ _ hk']

theorem take_dmBlocks {m n : Nat} (h : m ≤ n) (s : State) : (dmBlocks s n).take m = dmBlocks s m := by
  obtain ⟨k, rfl⟩ := Nat.exists_eq_add_of_le h
  rw [dmBlocks_eq_blocksFrom, take_blocksFrom, dmBlocks_eq_blocksFrom]

theorem dmBlocks_prefix {m n : Nat} (h : m ≤ n) (s : State) : dmBlocks s m <+: dmBlocks s n :=
  take_dmBlocks h s ▸ List.take_prefix m _

variable {i : Instr} {len : Nat} {events : List Event}

/-- An instruction that completes changes only blocks it advances over. -/
theorem Effect.dmByte_outside (h : Effect s t len i.adv (putBase i s.blk) i.putBytes events) {a : Nat}
    (ha : a < s.blk ∨ s.blk + i.adv ≤ a) : t.dmByte a = s.dmByte a := by
  rw [h.dm_eq, if_neg]
  rw [putBytes_length, putBase]
  rw [Instr.adv, Instr.skip] at ha
  omega

/-- The blocks an instruction advances over hold its overlay of the bytes they held. -/
theorem Effect.blocksFrom_eq (h : Effect s t len i.adv (putBase i s.blk) i.putBytes events) (n : Nat) :
    blocksFrom t s.blk i.adv = overlay i (blocksFrom s s.blk (i.adv + n)) := by
  have hadv : i.adv = i.skipBefore + (i.put + i.skipAfter) := by rw [Instr.adv, Instr.skip]; omega
  have hput : blocksFrom t (s.blk + i.skipBefore) i.put = i.putBytes := by
    rw [← putBytes_length]
    refine blocksFrom_eq_of_getD fun b hle hlt => ?_
    rw [h.dm_eq, putBase, if_pos ⟨hle, hlt⟩]
  have hbefore : blocksFrom t s.blk i.skipBefore = blocksFrom s s.blk i.skipBefore :=
    blocksFrom_congr fun b _ hlt => by rw [h.dm_eq, putBase, if_neg (by omega)]
  have hafter : blocksFrom t (s.blk + i.skipBefore + i.put) i.skipAfter =
      blocksFrom s (s.blk + i.skipBefore + i.put) i.skipAfter :=
    blocksFrom_congr fun b hle _ => by rw [h.dm_eq, putBase, putBytes_length, if_neg (by omega)]
  have hdrop : i.adv + n = i.skipBefore + i.put + (i.skipAfter + n) := by omega
  have htake : i.adv + n = i.skipBefore + (i.put + i.skipAfter + n) := by omega
  rw [overlay, hadv, blocksFrom_add, blocksFrom_add, hbefore, hput, hafter, ← hadv, List.append_assoc]
  congr 1
  · rw [htake, take_blocksFrom]
  · rw [hdrop, drop_blocksFrom, take_blocksFrom, Nat.add_assoc]

end Blocks

end Sys2Proof.Machine

namespace Sys2Proof.Machine

/-! ### Instructions the decoder plays (30_encoding.md R82 to R84) -/

/-- The instruction has an encoding under SIX_BIT and advances. -/
structure Playable (i : Instr) : Prop where
  wf : i.wf = true
  six_bit : i.inLayout .sixBit = true
  adv_pos : 1 ≤ i.adv

/-- From block `p` on, the instructions write no block from `lim` on. -/
def WritesBelow (lim p : Nat) : List Instr → Prop
  | [] => True
  | i :: is => (i.put = 0 ∨ p + i.adv ≤ lim) ∧ WritesBelow lim (p + i.adv) is

section FrameInstructions

variable {i : Instr} {is js : List Instr} {lim p : Nat}

theorem encode_length (i : Instr) : (encode i).length = i.byteLength := by
  cases i with
  | longSkip n => exact Laws.EncodeLength.longSkip n
  | skipCopy s d => exact Laws.EncodeLength.skipCopy s d
  | longCopy d => exact Laws.EncodeLength.longCopy d
  | copySkip d s => exact Laws.EncodeLength.copySkip d s
  | repeatByte n v => exact Laws.EncodeLength.repeatByte n v
  | repeatSkip n s v => exact Laws.EncodeLength.repeatSkip n s v
  | repeat7 n v => exact Laws.EncodeLength.repeat7 n v

theorem length_le_encodeAll (is : List Instr) : is.length ≤ (encodeAll is).length := by
  induction is with
  | nil => exact Nat.le_refl 0
  | cons i is ih =>
    have hpos := byteLength_pos i
    rw [encodeAll_cons, List.length_append, List.length_cons, encode_length]
    omega

/-- A canonical form counts at least one block. -/
theorem playable_of_canonical (h : canonical i = true) : Playable i := by
  obtain ⟨hwf, hsix⟩ := wf_and_sixBit_of_canonical h
  refine ⟨hwf, hsix, ?_⟩
  cases i with
  | repeat7 n v => cases h
  | longSkip n | skipCopy s d | longCopy d | copySkip d s | repeatByte n v | repeatSkip n s v =>
    simp only [canonical, Bool.and_eq_true, decide_eq_true_eq] at h
    simp only [Instr.adv_longSkip, Instr.adv_skipCopy, Instr.adv_longCopy, Instr.adv_copySkip, Instr.adv_repeatByte,
      Instr.adv_repeatSkip]
    omega

theorem playable_frameInstrs {es : List Elem} {raster : List Byte} (h : i ∈ frameInstrs es raster) : Playable i :=
  playable_of_canonical (selectEmitsCanonicalInstructions _ (fun _ => runInBounds_passB_passA) i h).1

theorem playable_pad {fb be : Nat} (h : i ∈ pad fb be) : Playable i := by
  have hwf := pad_wf h
  obtain ⟨n, -, rfl⟩ := List.mem_map.mp h
  exact ⟨hwf, rfl, by rw [Instr.adv_longSkip]; exact (Instr.wf_longSkip.mp hwf).1⟩

theorem put_pad {fb be : Nat} (h : i ∈ pad fb be) : i.put = 0 := by
  obtain ⟨n, -, rfl⟩ := List.mem_map.mp h
  rfl

theorem writesBelow_of_advSum_le (h : p + advSum is ≤ lim) : WritesBelow lim p is := by
  induction is generalizing p with
  | nil => trivial
  | cons i is ih =>
    rw [advSum_cons] at h
    exact ⟨.inr (by omega), ih (by omega)⟩

theorem writesBelow_of_put_zero (h : ∀ i ∈ is, i.put = 0) : WritesBelow lim p is := by
  induction is generalizing p with
  | nil => trivial
  | cons i is ih =>
    obtain ⟨hi, his⟩ := List.forall_mem_cons.mp h
    exact ⟨.inl hi, ih his⟩

theorem WritesBelow.append (h : WritesBelow lim p is) (h' : WritesBelow lim (p + advSum is) js) :
    WritesBelow lim p (is ++ js) := by
  induction is generalizing p with
  | nil => exact h'
  | cons i is ih =>
    rw [advSum_cons, ← Nat.add_assoc] at h'
    exact ⟨h.1, ih h.2 h'⟩

end FrameInstructions

/-! ### Chains of decoder steps -/

/-- `n` steps lead from the first state to the second; each moves the decoder and keeps DM's blocks from `lim` on. -/
inductive Decodes (lim : Nat) : Nat → State → State → Prop
  | refl (s : State) : Decodes lim 0 s s
  | cons {n : Nat} {s u t : State} (hstep : step s = .next u) (hmoved : Moved s u)
      (hkeeps : ∀ a, lim ≤ a → u.dmByte a = s.dmByte a) (h : Decodes lim n u t) : Decodes lim (n + 1) s t

section Chains

variable {lim m n : Nat} {s t u : State}

theorem Decodes.run (h : Decodes lim n s t) : Host.Core.run core n s = .next t := by
  induction h with
  | refl s => rfl
  | cons hstep _ _ _ ih => rw [run_succ hstep, ih]

theorem Decodes.moved (h : Decodes lim n s t) : Moved s t := by
  induction h with
  | refl s => exact Moved.refl s
  | cons _ hmoved _ _ ih => exact hmoved.trans ih

theorem Decodes.trans (h : Decodes lim m s u) (h' : Decodes lim n u t) : Decodes lim (m + n) s t := by
  induction h with
  | refl s => rwa [Nat.zero_add]
  | cons hstep hmoved hkeeps _ ih => rw [Nat.add_right_comm]; exact .cons hstep hmoved hkeeps (ih h')

/-- Every state on the way has the same blocks from `lim` on. -/
theorem Decodes.keeps_on_the_way (h : Decodes lim n s t) (hm : m ≤ n) (hrun : Host.Core.run core m s = .next u) {a : Nat}
    (ha : lim ≤ a) : u.dmByte a = s.dmByte a := by
  induction h generalizing m with
  | refl s =>
    obtain rfl := Nat.le_zero.mp hm
    obtain rfl := Host.Outcome.next.inj hrun
    rfl
  | cons hstep _ hkeeps _ ih =>
    cases m with
    | zero =>
      obtain rfl := Host.Outcome.next.inj hrun
      rfl
    | succ m =>
      rw [run_succ hstep] at hrun
      rw [ih (Nat.le_of_succ_le_succ hm) hrun, hkeeps a ha]

theorem Decodes.keeps (h : Decodes lim n s t) {a : Nat} (ha : lim ≤ a) : t.dmByte a = s.dmByte a :=
  h.keeps_on_the_way Nat.le.refl h.run ha

end Chains

/-! ### Decoding the instructions up to the end of a frame (42_opcode_decoder.md R171 to R174) -/

/-- The decoder went from `s` through the instructions `is` to the end of its frame, with `rest` left of IN. -/
structure EndsFrame (lim : Nat) (is : List Instr) (rest : List Byte) (s t : State) : Prop where
  decodes : Decodes lim is.length s t
  input_eq : t.inp.drop t.cur = rest
  cur_eq : t.cur = s.cur + (encodeAll is).length
  blk_eq : t.blk = 0
  dframes_eq : t.dframes = s.dframes + 1
  trace_eq : ∃ es, t.trace = s.trace ++ es ++ [.frameEnd s.dframes]
  shown_eq : blocksFrom t s.blk (advSum is) = overlayAll is (blocksFrom s s.blk (advSum is))
  below_eq : ∀ a, a < s.blk → t.dmByte a = s.dmByte a

section FrameDecoding

variable {lim : Nat} {i : Instr} {is : List Instr} {rest : List Byte} {s t u : State}

/-- A running decoder in front of a playable instruction that fits completes it. -/
theorem Decoding.plays (hs : Decoding s) (hlayout : s.cfg.layout = .sixBit) (hi : Playable i)
    (hin : s.inp.drop s.cur = encode i ++ rest) (hfit : s.blk + i.adv ≤ s.cfg.fb) :
    ∃ u, step s = .next u ∧ Effect s u i.byteLength i.adv (putBase i s.blk) i.putBytes (instrEvents i s.blk) ∧
      u.inp.drop u.cur = rest := by
  have hdecode : decode s.cfg.layout (s.inp.drop s.cur) = .ok (i, rest) := by
    rw [hin, hlayout, decodeUndoesEncode .sixBit i rest hi.wf hi.six_bit]
  have hneed : s.cur + i.byteLength ≤ s.inp.length := by
    have hlen := congrArg List.length hin
    have hpos := byteLength_pos i
    rw [List.length_drop, List.length_append, encode_length] at hlen
    omega
  obtain ⟨u, hexec, -, heff⟩ := exec_completes i s hneed hfit
  refine ⟨u, ?_, heff, ?_⟩
  · rw [step_eq_doDecStep hs.queue_nil, doDecStep_of_decode hs.reset_done hs.running hdecode, hexec]
  · rw [heff.moved.inp_eq, heff.cur_eq, ← List.drop_drop, hin, ← encode_length, List.drop_left]

theorem Effect.keeps_from {len : Nat} {events : List Event} (h : Effect s u len i.adv (putBase i s.blk) i.putBytes events)
    (hlim : i.put = 0 ∨ s.blk + i.adv ≤ lim) {a : Nat} (ha : lim ≤ a) : u.dmByte a = s.dmByte a := by
  obtain hput | hle := hlim
  · rw [h.dm_eq, if_neg (by rw [putBytes_length]; omega)]
  · exact h.dmByte_outside (.inr (hle.trans ha))

/-- The instruction that reaches FB ends the frame. -/
theorem EndsFrame.of_last (hstep : step s = .next t)
    (heff : Effect s t i.byteLength i.adv (putBase i s.blk) i.putBytes (instrEvents i s.blk)) (hin : t.inp.drop t.cur = rest)
    (hend : s.blk + i.adv = s.cfg.fb) (hlim : i.put = 0 ∨ s.blk + i.adv ≤ lim) : EndsFrame lim [i] rest s t where
  decodes := .cons hstep heff.moved (fun _ => heff.keeps_from hlim) (.refl t)
  input_eq := hin
  cur_eq := by rw [heff.cur_eq, encodeAll_cons, encodeAll_nil, List.append_nil, encode_length]
  blk_eq := by rw [heff.blk_eq, if_pos hend]
  dframes_eq := by rw [heff.dframes_eq, if_pos hend]
  trace_eq := ⟨_, by rw [heff.trace_eq, if_pos hend]⟩
  shown_eq := by
    rw [advSum_cons, advSum_nil, Nat.add_zero, overlayAll, overlayAll, List.append_nil]
    exact heff.blocksFrom_eq 0
  below_eq := fun _ ha => heff.dmByte_outside (.inl ha)

/-- An instruction that does not reach FB comes before the rest of its frame. -/
theorem EndsFrame.of_first (hstep : step s = .next u)
    (heff : Effect s u i.byteLength i.adv (putBase i s.blk) i.putBytes (instrEvents i s.blk)) (hend : s.blk + i.adv < s.cfg.fb)
    (hlim : i.put = 0 ∨ s.blk + i.adv ≤ lim) (h : EndsFrame lim is rest u t) : EndsFrame lim (i :: is) rest s t := by
  have hblk : u.blk = s.blk + i.adv := by rw [heff.blk_eq, if_neg hend.ne]
  have hdframes : u.dframes = s.dframes := by rw [heff.dframes_eq, if_neg hend.ne]
  have hbelow : ∀ a, a < s.blk + i.adv → t.dmByte a = u.dmByte a := fun a ha => h.below_eq a (hblk ▸ ha)
  have hfirst : blocksFrom t s.blk i.adv = blocksFrom u s.blk i.adv := blocksFrom_congr fun a _ ha => hbelow a ha
  have hrest : blocksFrom u (s.blk + i.adv) (advSum is) = blocksFrom s (s.blk + i.adv) (advSum is) :=
    blocksFrom_congr fun a ha _ => heff.dmByte_outside (.inr ha)
  obtain ⟨es, htrace⟩ := h.trace_eq
  exact {
    decodes := .cons hstep heff.moved (fun _ => heff.keeps_from hlim) h.decodes
    input_eq := h.input_eq
    cur_eq := by rw [h.cur_eq, heff.cur_eq, encodeAll_cons, List.length_append, encode_length, Nat.add_assoc]
    blk_eq := h.blk_eq
    dframes_eq := by rw [h.dframes_eq, hdframes]
    trace_eq := ⟨instrEvents i s.blk ++ es, by
      rw [htrace, hdframes, heff.trace_eq, if_neg hend.ne, List.append_nil, List.append_assoc s.trace]⟩
    shown_eq := by
      have hshown := h.shown_eq
      rw [hblk, hrest] at hshown
      rw [advSum_cons, blocksFrom_add, hfirst, hshown, overlayAll, drop_blocksFrom, heff.blocksFrom_eq (advSum is)]
    below_eq := fun a ha => (hbelow a (by omega)).trans (heff.dmByte_outside (.inl ha)) }

/-- A running decoder plays the instructions that fill its frame. -/
theorem exists_endsFrame (hs : Decoding s) (hlayout : s.cfg.layout = .sixBit) (his : ∀ i ∈ is, Playable i)
    (hin : s.inp.drop s.cur = encodeAll is ++ rest) (hblk : s.blk < s.cfg.fb) (hsum : s.blk + advSum is = s.cfg.fb)
    (hlim : WritesBelow lim s.blk is) : ∃ t, EndsFrame lim is rest s t := by
  induction is generalizing s with
  | nil => exact absurd hsum hblk.ne
  | cons i is ih =>
    obtain ⟨hi, his⟩ := List.forall_mem_cons.mp his
    obtain ⟨hlim, hlims⟩ := hlim
    rw [encodeAll_cons, List.append_assoc] at hin
    rw [advSum_cons] at hsum
    obtain ⟨u, hstep, heff, hinu⟩ := hs.plays hlayout hi hin (by omega)
    cases is with
    | nil => exact ⟨u, .of_last hstep heff hinu (by simpa [advSum_nil] using hsum) hlim⟩
    | cons j js =>
      have hj := (his j List.mem_cons_self).adv_pos
      have hend : s.blk + i.adv < s.cfg.fb := by rw [advSum_cons] at hsum; omega
      have hblku : u.blk = s.blk + i.adv := by rw [heff.blk_eq, if_neg hend.ne]
      have hcfg := heff.moved.cfg_eq
      obtain ⟨t, ht⟩ := ih (heff.moved.decoding hs) (hcfg ▸ hlayout) his hinu (by rw [hblku, hcfg]; exact hend)
        (by rw [hblku, hcfg]; omega) (hblku ▸ hlims)
      exact ⟨t, ht.of_first hstep heff hend hlim⟩

end FrameDecoding

/-! ### One encoded frame (41_opcode_encoder.md R147(e)) -/

/-- The instructions EncodeFrame emits for a classified raster: those of its runs, and the padding. -/
def frameProgram (fb : Nat) (es : List Elem) (raster : List Byte) : List Instr :=
  frameInstrs es raster ++ pad fb raster.length

/-- A SIX_BIT decoder runs at a frame boundary. -/
structure AtBoundary (s : State) : Prop where
  decoding : Decoding s
  six_bit : s.cfg.layout = .sixBit
  fb_pos : 0 < s.cfg.fb
  blk_zero : s.blk = 0

section EncodedFrame

variable {e s t : State} {raster rest : List Byte} {es : List Elem} {fb lim : Nat}

/-- What EncodeFrame commits for a raster it classifies and that fits. -/
theorem encodeFrame_commits (hready : e.estate = .ready) (hes : classify e raster = .ok es) (hfit : raster.length ≤ e.cfg.fb) :
    e.encodeFrame raster = e.commit (encodeAll (frameProgram e.cfg.fb es raster)) raster := by
  have hadv : advSum (frameInstrs es raster) = raster.length := advSum_frameInstrs (classify_length hes)
  rw [encodeFrame_classified hready hes, padAndCommit_fits (hadv ▸ hfit), hadv, frameProgram]

theorem advSum_frameProgram (hes : es.length = raster.length) (hfit : raster.length ≤ fb) :
    advSum (frameProgram fb es raster) = fb := by
  rw [frameProgram, advSum_append, advSum_frameInstrs hes, advSum_pad, Nat.add_sub_cancel' hfit]

theorem playable_frameProgram {i : Instr} (h : i ∈ frameProgram fb es raster) : Playable i :=
  (List.mem_append.mp h).elim playable_frameInstrs playable_pad

/-- The runs' instructions end where the raster does, and the padding writes nothing. -/
theorem writesBelow_frameProgram (hes : es.length = raster.length) : WritesBelow raster.length 0 (frameProgram fb es raster) :=
  (writesBelow_of_advSum_le (by rw [advSum_frameInstrs hes, Nat.zero_add])).append (writesBelow_of_put_zero fun _ => put_pad)

/-- Over blocks that show the previous raster the program leaves the raster first. -/
theorem Reproduces.prefix_overlayAll_frameProgram {shown : List Byte} (h : Reproduces es shown raster) :
    raster <+: overlayAll (frameProgram fb es raster) shown := by
  rw [frameProgram, overlayAll_append, h.overlayAll_frameInstrs]
  exact List.prefix_append _ _

theorem EndsFrame.atBoundary {is : List Instr} (h : EndsFrame lim is rest s t) (hs : AtBoundary s) : AtBoundary t := by
  have hcfg := h.decodes.moved.cfg_eq
  exact ⟨h.decodes.moved.decoding hs.decoding, hcfg ▸ hs.six_bit, hcfg ▸ hs.fb_pos, h.blk_eq⟩

/-- A decoder at a frame boundary that shows the encoder's previous raster plays the frame and shows the raster. -/
theorem AtBoundary.exists_endsFrame (hs : AtBoundary s) (hes : classify e raster = .ok es) (hfit : raster.length ≤ s.cfg.fb)
    (hshown : e.prevValid = true → dmBlocks s raster.length = e.prev)
    (hin : s.inp.drop s.cur = encodeAll (frameProgram s.cfg.fb es raster) ++ rest) :
    ∃ t, EndsFrame raster.length (frameProgram s.cfg.fb es raster) rest s t ∧ dmBlocks t raster.length = raster := by
  obtain ⟨hdecoding, hlayout, hfb, hblk⟩ := hs
  have hlen := classify_length hes
  have hsum := advSum_frameProgram hlen hfit
  obtain ⟨t, ht⟩ := Machine.exists_endsFrame (lim := raster.length) hdecoding hlayout (fun _ => playable_frameProgram) hin
    (hblk ▸ hfb) (by rw [hblk, hsum, Nat.zero_add]) (hblk ▸ writesBelow_frameProgram hlen)
  refine ⟨t, ht, ?_⟩
  have hreproduces : Reproduces es (dmBlocks s s.cfg.fb) raster :=
    classify_reproduces hes fun hv => hshown hv ▸ dmBlocks_prefix hfit s
  have hall := ht.shown_eq
  rw [hsum, hblk, ← dmBlocks_eq_blocksFrom, ← dmBlocks_eq_blocksFrom] at hall
  rw [← take_dmBlocks hfit, hall, ← List.prefix_iff_eq_take.mp hreproduces.prefix_overlayAll_frameProgram]

end EncodedFrame

/-- Settles O53: the bytes are those of instructions that fill the frame, and what they leave of the previous raster is the raster. -/
theorem frameDecodesToRaster : Obligations.FrameDecodesToRaster := by
  intro e s raster bytes rest hready hprev hfit hout hreset hqueue hrun hlegal hlayout hfb hblk hshown hin
  obtain ⟨es, hes⟩ := exists_classify hprev
  rw [encodeFrame_commits hready hes hfit, commit_out] at hout
  obtain rfl := List.append_cancel_left hout
  rw [← hfb] at hfit hin ⊢
  have hs : AtBoundary s := ⟨⟨hreset, hqueue, hrun⟩, hlayout, fb_pos_of_legal hlegal, hblk⟩
  obtain ⟨t, ht, hraster⟩ := hs.exists_endsFrame hes hfit hshown hin
  obtain ⟨events, htrace⟩ := ht.trace_eq
  exact ⟨_, t, events, ht.decodes.run, (ht.atBoundary hs).decoding.running, ht.blk_eq, ht.dframes_eq, ht.cur_eq, htrace, hraster,
    fun _ => ht.decodes.keeps⟩

end Sys2Proof.Machine

namespace Sys2Proof.Machine

/-! ### The encoder's side of an animation (41_opcode_encoder.md R146) -/

/-- The encoder takes rasters of `RL` blocks: it is READY, they fit the frame, and so was its previous raster, if there is one. -/
structure Encoding (RL : Nat) (e : State) : Prop where
  ready : e.estate = .ready
  fits : RL ≤ e.cfg.fb
  prev_length : e.prevValid = true → e.prev.length = RL

section EncodingFrames

variable {RL : Nat} {e : State} {f : List Byte} {frames : List (List Byte)}

theorem afterReset_encoding {cfg : Cfg} (h : RL ≤ cfg.fb) (k : Nat) (q : List Transaction) :
    Encoding RL (State.afterReset cfg k q) := ⟨rfl, h, nofun⟩

/-- A raster of `RL` blocks is classified and committed. -/
theorem Encoding.exists_commit (he : Encoding RL e) (hf : f.length = RL) :
    ∃ es, classify e f = .ok es ∧ e.encodeFrame f = e.commit (encodeAll (frameProgram e.cfg.fb es f)) f := by
  obtain ⟨es, hes⟩ := exists_classify fun hv => (he.prev_length hv).trans hf.symm
  exact ⟨es, hes, encodeFrame_commits he.ready hes (hf ▸ he.fits)⟩

theorem Encoding.commit (he : Encoding RL e) (hf : f.length = RL) (bytes : List Byte) : Encoding RL (e.commit bytes f) :=
  ⟨he.ready, he.fits, fun _ => hf⟩

/-- The frames of an animation are all committed. -/
theorem Encoding.encodeFrames (he : Encoding RL e) (hframes : ∀ f ∈ frames, f.length = RL) :
    (encodeFrames frames e).estate = .ready ∧ (encodeFrames frames e).eframes = e.eframes + frames.length := by
  induction frames generalizing e with
  | nil => exact ⟨he.ready, rfl⟩
  | cons f frames ih =>
    obtain ⟨hf, hframes⟩ := List.forall_mem_cons.mp hframes
    obtain ⟨es, -, hcommit⟩ := he.exists_commit hf
    obtain ⟨hready, hcount⟩ := ih (he.commit hf _) hframes
    rw [Machine.encodeFrames, List.foldl_cons, hcommit]
    refine ⟨hready, hcount.trans ?_⟩
    rw [commit_eframes, List.length_cons]
    omega

end EncodingFrames

/-! ### The decoder's side of an animation (42_opcode_decoder.md R184) -/

/-- `n` steps lead to the end of a frame that shows `f` in the first `RL` blocks. -/
structure ShowsFrame (RL n : Nat) (f : List Byte) (s t : State) : Prop where
  decodes : Decodes RL n s t
  dframes_eq : t.dframes = s.dframes + 1
  last_event : t.trace.getLast? = some (.frameEnd s.dframes)
  shown_eq : dmBlocks t RL = f

/-- `n` steps show the frames one after another. -/
inductive ShowsFrames (RL : Nat) : Nat → List (List Byte) → State → State → Prop
  | nil (s : State) : ShowsFrames RL 0 [] s s
  | cons {m n : Nat} {f : List Byte} {frames : List (List Byte)} {s u t : State} (hfirst : ShowsFrame RL m f s u)
      (h : ShowsFrames RL n frames u t) : ShowsFrames RL (m + n) (f :: frames) s t

section Shown

variable {RL n : Nat} {frames : List (List Byte)} {s t : State}

theorem ShowsFrames.decodes (h : ShowsFrames RL n frames s t) : Decodes RL n s t := by
  induction h with
  | nil s => exact .refl s
  | cons hfirst _ ih => exact hfirst.decodes.trans ih

theorem ShowsFrames.dframes_eq (h : ShowsFrames RL n frames s t) : t.dframes = s.dframes + frames.length := by
  induction h with
  | nil s => rfl
  | cons hfirst _ ih => rw [ih, hfirst.dframes_eq, List.length_cons]; omega

/-- The end of frame `j` is on the way, and frame `j` is shown there. -/
theorem ShowsFrames.exists_frame_end (h : ShowsFrames RL n frames s t) {j : Nat} (hj : j < frames.length) :
    ∃ m u, Host.Core.run core m s = .next u ∧ u.trace.getLast? = some (.frameEnd (s.dframes + j)) ∧
      u.dframes = s.dframes + j + 1 ∧ dmBlocks u RL = frames.getD j [] := by
  induction h generalizing j with
  | nil s => exact absurd hj (Nat.not_lt_zero j)
  | @cons _ _ _ _ s _ _ hfirst _ ih =>
    cases j with
    | zero => exact ⟨_, _, hfirst.decodes.run, hfirst.last_event, hfirst.dframes_eq, hfirst.shown_eq⟩
    | succ j =>
      obtain ⟨m, v, hrun, hlast, hdframes, hshown⟩ := ih (Nat.lt_of_succ_lt_succ hj)
      have hindex : s.dframes + 1 + j = s.dframes + (j + 1) := by omega
      rw [hfirst.dframes_eq, hindex] at hlast hdframes
      exact ⟨_, v, (run_add m hfirst.decodes.run).trans hrun, hlast, hdframes, hshown⟩

end Shown

/-- The decoder is at a frame boundary under the encoder's configuration and shows the encoder's previous raster. -/
structure Follows (RL : Nat) (e s : State) : Prop where
  at_boundary : AtBoundary s
  cfg_eq : s.cfg = e.cfg
  shown : e.prevValid = true → dmBlocks s RL = e.prev

section Following

variable {RL : Nat} {e s : State} {f : List Byte} {frames : List (List Byte)}

/-- A decoder that follows the encoder plays the committed frame, and follows the encoder again. -/
theorem Follows.exists_showsFrame {es : List Elem} {rest : List Byte} (hs : Follows RL e s) (he : Encoding RL e)
    (hf : f.length = RL) (hes : classify e f = .ok es)
    (hin : s.inp.drop s.cur = encodeAll (frameProgram e.cfg.fb es f) ++ rest) :
    ∃ n u, n ≤ (encodeAll (frameProgram e.cfg.fb es f)).length ∧ ShowsFrame RL n f s u ∧
      u.inp.drop u.cur = rest ∧ u.cur = s.cur + (encodeAll (frameProgram e.cfg.fb es f)).length ∧
      Follows RL (e.commit (encodeAll (frameProgram e.cfg.fb es f)) f) u := by
  subst hf
  have hfit : f.length ≤ s.cfg.fb := hs.cfg_eq ▸ he.fits
  rw [← hs.cfg_eq] at hin ⊢
  obtain ⟨u, hu, hshown⟩ := hs.at_boundary.exists_endsFrame hes hfit hs.shown hin
  obtain ⟨events, htrace⟩ := hu.trace_eq
  refine ⟨_, u, length_le_encodeAll _, ⟨hu.decodes, hu.dframes_eq, ?_, hshown⟩, hu.input_eq, hu.cur_eq,
    hu.atBoundary hs.at_boundary, hu.decodes.moved.cfg_eq.trans hs.cfg_eq, fun _ => hshown⟩
  rw [htrace, List.getLast?_append, List.getLast?_singleton, Option.some_or]

/-- The frames of an animation add bytes to OUT that a following decoder plays frame by frame. -/
theorem exists_showsFrames (he : Encoding RL e) (hframes : ∀ f ∈ frames, f.length = RL) :
    ∃ bytes, (encodeFrames frames e).out = e.out ++ bytes ∧
      ∀ s, Follows RL e s → s.inp.drop s.cur = bytes →
        ∃ n t, n ≤ bytes.length ∧ ShowsFrames RL n frames s t ∧ t.cur = s.cur + bytes.length ∧ t.blk = 0 := by
  induction frames generalizing e with
  | nil => exact ⟨[], (List.append_nil _).symm, fun s hs _ => ⟨0, s, Nat.le_refl 0, .nil s, rfl, hs.at_boundary.blk_zero⟩⟩
  | cons f frames ih =>
    obtain ⟨hf, hframes⟩ := List.forall_mem_cons.mp hframes
    obtain ⟨es, hes, hcommit⟩ := he.exists_commit hf
    have he' := he.commit hf (encodeAll (frameProgram e.cfg.fb es f))
    obtain ⟨rest, hout, hplay⟩ := ih he' hframes
    refine ⟨encodeAll (frameProgram e.cfg.fb es f) ++ rest, ?_, fun s hs hin => ?_⟩
    · rw [encodeFrames, List.foldl_cons, hcommit, ← encodeFrames, hout, commit_out, List.append_assoc]
    · obtain ⟨m, u, hm, hfirst, hinu, hcuru, hu⟩ := hs.exists_showsFrame he hf hes hin
      obtain ⟨n, t, hn, hshows, hcur, hblk⟩ := hplay u hu hinu
      refine ⟨m + n, t, ?_, .cons hfirst hshows, ?_, hblk⟩
      · rw [List.length_append]; omega
      · rw [hcur, hcuru, List.length_append, Nat.add_assoc]

end Following

/-! ### After the last frame (42_opcode_decoder.md R182, R183) -/

section AfterTheStream

variable {RL n : Nat} {s t : State}

/-- A decoder that stopped stays as it is. -/
theorem run_of_not_running (hreset : s.resetDone = true) (hqueue : s.hostQueue = []) (hrun : s.dstate ≠ .run) (k : Nat) :
    Host.Core.run core k s = .next s := by
  induction k with
  | zero => rfl
  | succ k ih => rw [run_succ ((step_eq_doDecStep hqueue).trans (doDecStep_not_running hreset hrun)), ih]

/-- At the end of the stream and of a frame the decoder is DONE. -/
theorem Decoding.step_done (hs : Decoding s) (hend : s.cur = s.inp.length) (hblk : s.blk = 0) :
    step s = .next { s with dstate := .done } :=
  (step_of_queue_nil hs.queue_nil).trans ((endOfStreamStops s hs.reset_done hs.running hend).1 hblk)

/-- A chain of steps that ends DONE keeps the blocks from `RL` on, however many steps are taken. -/
theorem Decodes.keeps_forever (h : Decodes RL n s t) (ht : Decoding t) (hdone : step t = .next { t with dstate := .done })
    {m : Nat} {u : State} (hrun : Host.Core.run core m s = .next u) {a : Nat} (ha : RL ≤ a) : u.dmByte a = s.dmByte a := by
  by_cases hm : m ≤ n
  · exact h.keeps_on_the_way hm hrun ha
  · obtain ⟨k, rfl⟩ : ∃ k, m = n + (k + 1) := ⟨m - n - 1, by omega⟩
    have hstays := run_of_not_running (s := { t with dstate := .done }) ht.reset_done ht.queue_nil nofun k
    rw [run_add _ h.run, run_succ hdone] at hrun
    obtain rfl := Host.Outcome.next.inj (hstays.symm.trans hrun)
    exact h.keeps ha

end AfterTheStream

/-- Settles O54: after DecLoad the decoder follows the encoder from its reset, frame by frame, and DONE comes one step after
the last frame. -/
theorem animationRoundTrip : Obligations.AnimationRoundTrip := by
  rintro cfg frames RL k q e s d hlegal hlayout hfit hframes rfl rfl hreset hqueue - hload
  have he : Encoding RL (State.afterReset s.cfg k q) := afterReset_encoding hfit k q
  obtain ⟨hready, hcount⟩ := he.encodeFrames hframes
  obtain ⟨bytes, hout, hplay⟩ := exists_showsFrames he hframes
  obtain rfl : (encodeFrames frames (State.afterReset s.cfg k q)).out = bytes := hout
  obtain rfl := doDecLoad_eq_next hload
  have hdecoding : Decoding (s.load (encodeFrames frames (State.afterReset s.cfg k q)).out) := ⟨hreset, hqueue, rfl⟩
  obtain ⟨n, t, hn, hshows, hcur, hblk⟩ :=
    hplay _ ⟨⟨hdecoding, hlayout, fb_pos_of_legal hlegal, rfl⟩, rfl, nofun⟩ rfl
  have hmoved := hshows.decodes.moved
  have ht := hmoved.decoding hdecoding
  have hdone := ht.step_done (by rw [hcur, hmoved.inp_eq]; exact Nat.zero_add _) hblk
  refine ⟨hready, hcount.trans (Nat.zero_add _),
    ⟨n + 1, { t with dstate := .done }, Nat.succ_le_succ hn, ?_, rfl, hmoved.dfault_eq, ?_⟩, fun j hj => ?_,
    fun m u hrun a ha => hshows.decodes.keeps_forever ht hdone hrun ha⟩
  · exact (run_add 1 hshows.decodes.run).trans (run_succ hdone)
  · exact hshows.dframes_eq.trans (Nat.zero_add _)
  · simpa using hshows.exists_frame_end hj

end Sys2Proof.Machine
